-- ==== Sys2Proof/Word.lean ====
section
/-! DEFINITION. The word types of BRT64: every value of the spec is a 64-bit word unless it is a boolean, a bit index
or a shift amount (spec/00_scope.md R7, R10). -/

namespace Sys2Proof

/-- A word: a 64-bit unsigned integer, bit `i` having weight `2^i` (R7). -/
abbrev Word := BitVec 64

/-- The value on the operation select port `op[1:0]` (R26, R52). -/
abbrev OpSelect := BitVec 2

/-- A bit index on the wires of a datapath, 0 to 63 (R6 `LW`, R91). -/
abbrev BitIndex := BitVec 6

/-- The shifter's 7-bit amount on the wires of a datapath (R101, R129). -/
abbrev ShiftAmount := BitVec 7

/-- The 130-bit command word `{op, a, b}` (R50). -/
abbrev CommandWord := BitVec 130

end Sys2Proof
end

