-- ==== Sys2Proof/Syntax.lean ====
section
/-! DEFINITION. Commands, the four operations, the instructions they decode to, and the listing form in which a host
writes them (spec/30_encoding.md R50 to R60). -/

namespace Sys2Proof

/-- One evaluation of the unit: the values on the three input ports (R50). -/
structure Command where
  op : OpSelect
  a : Word
  b : Word
deriving DecidableEq, Repr

/-- The four operations, in the order of their select codes (R52). -/
inductive Operation where
  | isPowerOfTwo
  | reverseBits
  | log2Pow2
  | reverseBitsLimited
deriving DecidableEq, Repr

/-- The mnemonic: the source's function name, spelled exactly so (R58). -/
def Operation.mnemonic : Operation → String
  | .isPowerOfTwo => "is_power_of_two"
  | .reverseBits => "reverse_bits"
  | .log2Pow2 => "log2_pow2"
  | .reverseBitsLimited => "reverse_bits_limited"

/-- How many operands the mnemonic takes in a listing (R52, R58). -/
def Operation.arity : Operation → Nat
  | .isPowerOfTwo => 1
  | .reverseBits => 1
  | .log2Pow2 => 1
  | .reverseBitsLimited => 2

/-- The instructions: one constructor per row of the opcode table, with its operands as the ports carry them. For the
three one-operand operations `b` is the word on port `b`, which the operation ignores (R28, R54). -/
inductive Instr where
  | isPowerOfTwo (n b : Word)
  | reverseBits (n b : Word)
  | log2Pow2 (n b : Word)
  | reverseBitsLimited (n value : Word)
deriving DecidableEq, Repr

/-- The operation an instruction is of. -/
def Instr.operation : Instr → Operation
  | .isPowerOfTwo _ _ => .isPowerOfTwo
  | .reverseBits _ _ => .reverseBits
  | .log2Pow2 _ _ => .log2Pow2
  | .reverseBitsLimited _ _ => .reverseBitsLimited

/-- An operand literal of a listing, as written (R58): its digits, most significant first, in base 10, 16 or 2, or the
shift form `1 << k`. -/
inductive Literal where
  | decimal (digits : List (Fin 10))
  | hexadecimal (digits : List (Fin 16))
  | binary (digits : List (Fin 2))
  | oneShiftedLeft (k : Nat)
deriving DecidableEq, Repr

/-- An operand of a listing line: a literal, or `y1`, `y2`, … naming the result of an earlier line, which the host
copies to the port (R58). -/
inductive Operand where
  | literal (l : Literal)
  | result (line : Nat)
deriving DecidableEq, Repr

/-- A line of a listing: a mnemonic and its operands (R58). -/
structure Line where
  operation : Operation
  operands : List Operand
deriving DecidableEq, Repr

end Sys2Proof
end

