-- ==== Sys2Proof/Decode.lean ====
section
/-! DEFINITION. The decoder, a four-way case on `op` and nothing more (spec/30_encoding.md R53), and the encoder; and
the integers that operand literals of a listing stand for (R58). The command word is the 130-bit number `{op, a, b}`; there are no bytes and no byte order (R36, R50). -/

namespace Sys2Proof

/-- The operation a select code selects; `op[1]` is the more significant bit (R27, R52). -/
def operationOfSelect (op : OpSelect) : Operation :=
  match (op.toFin : Fin 4) with
  | 0 => .isPowerOfTwo
  | 1 => .reverseBits
  | 2 => .log2Pow2
  | 3 => .reverseBitsLimited

/-- The select code of an operation (R52). -/
def selectOfOperation : Operation → OpSelect
  | .isPowerOfTwo => 0b00#2
  | .reverseBits => 0b01#2
  | .log2Pow2 => 0b10#2
  | .reverseBitsLimited => 0b11#2

/-- The instruction a command is: `n` is on port `a`, `value` on port `b` (R54). -/
def decode (c : Command) : Instr :=
  match operationOfSelect c.op with
  | .isPowerOfTwo => .isPowerOfTwo c.a c.b
  | .reverseBits => .reverseBits c.a c.b
  | .log2Pow2 => .log2Pow2 c.a c.b
  | .reverseBitsLimited => .reverseBitsLimited c.a c.b

/-- The command that issues an instruction. -/
def commandOf : Instr → Command
  | .isPowerOfTwo n b => { op := selectOfOperation .isPowerOfTwo, a := n, b := b }
  | .reverseBits n b => { op := selectOfOperation .reverseBits, a := n, b := b }
  | .log2Pow2 n b => { op := selectOfOperation .log2Pow2, a := n, b := b }
  | .reverseBitsLimited n value => { op := selectOfOperation .reverseBitsLimited, a := n, b := value }

/-- The command word of a command: `op` in bits 129 to 128, `a` in 127 to 64, `b` in 63 to 0 (R50, R51). -/
def wordOfCommand (c : Command) : CommandWord := c.op ++ c.a ++ c.b

/-- The command a command word writes down (R50, R51). -/
def commandOfWord (w : CommandWord) : Command :=
  { op := w.extractLsb' 128 2, a := w.extractLsb' 64 64, b := w.extractLsb' 0 64 }

/-- The instruction a command word stands for. -/
def decodeWord (w : CommandWord) : Instr := decode (commandOfWord w)

/-- The command word of an instruction. -/
def encode (i : Instr) : CommandWord := wordOfCommand (commandOf i)

/-- The hexadecimal digits of the lowest `k` nibbles of a number, most significant first. -/
def hexDigits (w : Nat) : Nat → List (Fin 16)
  | 0 => []
  | k + 1 => Fin.ofNat 16 (w / 16 ^ k) :: hexDigits w k

/-- The 33 hexadecimal digits in which a listing writes a command word (R50). -/
def hexDigitsOfWord (w : CommandWord) : List (Fin 16) := hexDigits w.toNat 33

/-- Why a string of bits is no command. -/
inductive DecodeReject where
  /-- A bit at 130 or above is set: a command word has 130 bits (R50) and the ports have no such wire (log entry 11). -/
  | bitAboveCommandWord
deriving DecidableEq, Repr

/-- Decode any string of `nbits` bits, given as the number `w` with bit 0 its least significant bit; bits the string
does not have are 0. Every string whose bits above 129 are 0 is a command word, and every command word is legal
(R56). -/
def decodeBits (nbits w : Nat) : Except DecodeReject Instr :=
  if w % 2 ^ nbits < 2 ^ 130 then .ok (decodeWord (BitVec.ofNat 130 (w % 2 ^ nbits)))
  else .error .bitAboveCommandWord

/-- The instruction the decoder reads from an instruction whose bits, numbered as the opcode table numbers them, are
`w`; none where it refuses. -/
def decodeTableWord (nbits w : Nat) : Option Instr :=
  match decodeBits nbits w with
  | .ok i => some i
  | .error _ => none

/-- The integer a digit string stands for, most significant digit first (R7). -/
def digitsValue (base : Nat) (digits : List Nat) : Nat :=
  digits.foldl (fun acc d => acc * base + d) 0

/-- The integer a literal stands for (R58). -/
def Literal.value : Literal → Nat
  | .decimal ds => digitsValue 10 (ds.map Fin.val)
  | .hexadecimal ds => digitsValue 16 (ds.map Fin.val)
  | .binary ds => digitsValue 2 (ds.map Fin.val)
  | .oneShiftedLeft k => 2 ^ k

/-- A literal has at least one digit, or is `1 << k` with `k` in `[0, 63]` (R9, R58). -/
def Literal.spelled : Literal → Bool
  | .decimal ds => !ds.isEmpty
  | .hexadecimal ds => !ds.isEmpty
  | .binary ds => !ds.isEmpty
  | .oneShiftedLeft k => decide (k < 64)

/-- A literal is in `[0, 2^64 − 1]` (R58). -/
def Literal.inRange (l : Literal) : Bool := decide (l.value < 2 ^ 64)

end Sys2Proof
end

