-- ==== Sys2Proof/Machine/Flags.lean ====
section
/-! DEFINITION. There are no flags: no operation sets a carry, zero, overflow, sign or error flag (spec/10_state.md R23).
The one boolean of the unit is the result of `is_power_of_two`, which this file puts on the output port. -/

namespace Sys2Proof.Machine

/-- `zext_64` of a boolean: the word 1 for true, the word 0 for false (R55, R73, decision D4). -/
def wordOfBool (t : Bool) : Word := if t then 1#64 else 0#64

end Sys2Proof.Machine
end

