-- ==== Sys2Proof/Machine/PowerOfTwo.lean ====
section
/-! DEFINITION. The function `is_power_of_two` (spec/40_is_power_of_two.md). -/

namespace Sys2Proof.Machine

/-- `n & (n -_64 1) == 0`, the subtraction wrapping modulo `2^64`, so that 0 gives true (R70, R71). -/
def isPowerOfTwo (n : Word) : Bool := (n &&& (n - 1#64)) == 0#64

/-- The test a caller composes to exclude zero, done outside the unit: `n != 0 AND is_power_of_two(n)` (R59 (1), R77). -/
def isPositivePowerOfTwo (n : Word) : Bool := (n != 0#64) && isPowerOfTwo n

end Sys2Proof.Machine
end

