-- ==== Sys2Proof/Config.lean ====
section
/-! DEFINITION. What an implementation of BRT64 fixes and the spec leaves open: the two parameters of
spec/00_scope.md R6. They are constants of the unit, not state (R24, R31). -/

namespace Sys2Proof.Config

/-- The two open parameters of R6, as the argument every function that needs one takes: the result of `log2_pow2` at 0
(R94, decision D8) and the result of `reverse_bits_limited` at `n = 0` as a function of `value` (R106, decision D9). -/
structure Params where
  log2OfZero : Word
  rblOfNzero : Word → Word

/-- `LOG2_OF_ZERO` of the modelled unit: one 64-bit constant of which nothing may be assumed (R94). No body: no proof
can see its value. -/
opaque log2OfZero : Word

/-- `RBL_OF_NZERO` of the modelled unit: one total function of `value` of which nothing may be assumed (R106). It is not
derived from `LOG2_OF_ZERO` (D9). No body: no proof can see a value of it. -/
opaque rblOfNzero : Word → Word

/-- The parameters of the one unit the machine models. -/
def thisUnit : Params := { log2OfZero := log2OfZero, rblOfNzero := rblOfNzero }

end Sys2Proof.Config
end

