-- ==== Sys2Proof/Machine/Bits.lean ====
section
/-! DEFINITION. The bit operations of spec/00_scope.md R7 and R9 that the definitions and the datapaths share. -/

namespace Sys2Proof.Machine

/-- The number whose bit `i` is `f i` for `i < k`: the sum over `i < k` of `f i * 2^i` (R7). -/
def natOfBits (f : Nat → Bool) : Nat → Nat
  | 0 => 0
  | k + 1 => natOfBits f k + (if f k then 2 ^ k else 0)

/-- The word whose bit `i` is `f i` for `i` in `[0, 63]` (R7). -/
def wordOfBits (f : Nat → Bool) : Word := BitVec.ofNat 64 (natOfBits f 64)

/-- `shr(x, s)`: logical right shift, `floor(x / 2^s)`. The amount is an integer, not reduced modulo 64, so
`shr(x, 64) = 0` (R9, decision D7). -/
def shr (x : Word) (s : Nat) : Word := x >>> s

/-- `shl(x, s) = (x * 2^s) mod 2^64`, so `shl(x, 64) = 0` (R9, R119 (d)). -/
def shl (x : Word) (s : Nat) : Word := x <<< s

/-- How many of the lowest `k` bits of `x` are 1. -/
def popcountBelow (x : Word) : Nat → Nat
  | 0 => 0
  | k + 1 => popcountBelow x k + (if x.getLsbD k then 1 else 0)

/-- `popcount(x)` (R9). -/
def popcount (x : Word) : Nat := popcountBelow x 64

/-- How many zero bits stand at the top of the lowest `k` bits of `x`. -/
def leadingZerosBelow (x : Word) : Nat → Nat
  | 0 => 0
  | k + 1 => if x.getLsbD k then 0 else leadingZerosBelow x k + 1

/-- `clz(x)`: the number of leading zero bits, 64 for 0 (R9). -/
def clz (x : Word) : Nat := leadingZerosBelow x 64

/-- The largest `i < k` with `x[i] = 1`; used only where there is one. -/
def highestSetBitBelow (x : Word) : Nat → Nat
  | 0 => 0
  | k + 1 => if x.getLsbD k then k else highestSetBitBelow x k

/-- The index of the highest set bit of `x`, for `x >= 1` (R90). Its value at 0 is used nowhere: each use stands behind
the test `n = 0`, whose result is an open parameter. -/
def highestSetBit (x : Word) : Nat := highestSetBitBelow x 64

end Sys2Proof.Machine
end

