-- ==== Sys2Proof/Machine/Log2.lean ====
section
/-! DEFINITION. The function `log2_pow2` (spec/42_log2_pow2.md). -/

namespace Sys2Proof.Machine

/-- The index of the highest set bit for `n >= 1`, the open parameter `LOG2_OF_ZERO` for `n = 0` (R90, R94). -/
def log2Pow2 (p : Config.Params) (n : Word) : Word :=
  if n = 0#64 then p.log2OfZero else BitVec.ofNat 64 (highestSetBit n)

end Sys2Proof.Machine
end

