-- ==== Sys2Proof/Machine/ReverseBits.lean ====
section
/-! DEFINITION. The function `reverse_bits` (spec/41_reverse_bits.md). -/

namespace Sys2Proof.Machine

/-- The word whose bit `i` is `n[63 − i]`, for `i` in `[0, 63]` (R80). -/
def reverseBits (n : Word) : Word := wordOfBits (fun i => n.getLsbD (63 - i))

end Sys2Proof.Machine
end

