-- ==== Sys2Proof/Machine/ReverseBitsLimited.lean ====
section
/-! DEFINITION. The function `reverse_bits_limited` (spec/43_reverse_bits_limited.md). -/

namespace Sys2Proof.Machine

/-- The full reversal of `value` shifted right by `64 − log2_pow2(n)`, for every `n >= 1`, in domain or not (R100, R105);
the open parameter `RBL_OF_NZERO(value)` for `n = 0`, a test made before anything else (R106, R138). -/
def reverseBitsLimited (p : Config.Params) (n value : Word) : Word :=
  if n = 0#64 then p.rblOfNzero value
  else shr (reverseBits value) (64 - (log2Pow2 p n).toNat)

end Sys2Proof.Machine
end

