-- ==== Sys2Proof/Machine/UnitFunction.lean ====
section
/-! DEFINITION. The unit's function `F` (spec/30_encoding.md R53). -/

namespace Sys2Proof.Machine

/-- `F(op, a, b)`: what the output `y` is for the present inputs, given the two open parameters (R53). -/
def unitFunction (p : Config.Params) (c : Command) : Word :=
  match operationOfSelect c.op with
  | .isPowerOfTwo => wordOfBool (isPowerOfTwo c.a)
  | .reverseBits => reverseBits c.a
  | .log2Pow2 => log2Pow2 p c.a
  | .reverseBitsLimited => reverseBitsLimited p c.a c.b

end Sys2Proof.Machine
end

