-- ==== Sys2Proof/Machine/State.lean ====
section
/-! DEFINITION. The state: the values on the four ports, and the host's lists. The unit itself holds no state at all
(spec/10_state.md R20); nothing here is retained by it from one command to the next. -/

namespace Sys2Proof.Machine

/-- The ports (R26) and the host (R29, R150). -/
structure State where
  /-- Input port `op[1:0]`, driven by the host. -/
  op : OpSelect
  /-- Input port `a[63:0]`, driven by the host. -/
  a : Word
  /-- Input port `b[63:0]`, driven by the host. -/
  b : Word
  /-- Output port `y[63:0]`, driven by the unit; not a register (R156). -/
  y : Word
  /-- The host's commands still to be issued, the next one first (R29, R150). -/
  pending : List Command
  /-- The results the host has sampled, one per command it has issued, oldest first (R29). -/
  results : List Word
deriving DecidableEq, Repr

/-- The command on the input ports. -/
def State.command (s : State) : Command := { op := s.op, a := s.a, b := s.b }

/-- There is no fault: "the machine's step has no fault arm and no stuck case" (spec/60_exceptions.md R135). Nobody raises
one. -/
inductive Fault where
deriving DecidableEq, Repr

/-- Why the model has no meaning for an instruction. -/
inductive Refusal where
  /-- The arm of `exec` of an instruction the model gives no meaning; safe, since nothing is claimed of it. No arm raises
  it: all four operations have their meaning. -/
  | notModelled (mnemonic : String)
deriving DecidableEq, Repr

/-- The output follows the inputs: `y = F(op, a, b)` (R28). -/
def State.Settled (s : State) : Prop := s.y = unitFunction Config.thisUnit s.command

/-- The machine at power-up. There is no reset and no reset value (R31, R155): the host drives zeros on the inputs
(DESIGN CHOICE, log entry 2), `y` follows them (R156, log entry 3), no command is waiting and no result has been sampled
(log entry 12). -/
def State.reset : State where
  op := 0#2
  a := 0#64
  b := 0#64
  y := unitFunction Config.thisUnit { op := 0#2, a := 0#64, b := 0#64 }
  pending := []
  results := []

end Sys2Proof.Machine
end

