-- ==== Sys2Proof/Machine/Ops.lean ====
section
/-! DEFINITION. What is done to the ports: the unit drives `y`; the host drives the inputs and samples `y`. There is no
memory operation and no register operation (spec/20_memory.md R35, 10_state.md R21), and no exception to take or to
return from (60_exceptions.md R135, R139, R140). -/

namespace Sys2Proof.Machine

/-- `y <- v`: the unit's only effect (R10). -/
def driveY (v : Word) (s : State) : State := { s with y := v }

/-- The host puts a command on the input ports (R150). -/
def driveInputs (c : Command) (s : State) : State := { s with op := c.op, a := c.a, b := c.b }

/-- What the host does before the unit answers: it issues the next command of its list, or, with none left, holds the
inputs as they are (R150; DESIGN CHOICE, log entry 8). -/
def hostIssue (s : State) : State :=
  match s.pending with
  | [] => s
  | c :: rest => driveInputs c { s with pending := rest }

/-- What the host does after the unit has answered: it samples `y` as the result of the command it issued, if it issued
one (R29, R150; log entry 9). -/
def hostSample (before after : State) : State :=
  match before.pending with
  | [] => after
  | _ :: _ => { after with results := after.results ++ [after.y] }

/-- Put a command in front of the host's list, so that it is issued next. -/
def hostEnqueueFront (c : Command) (s : State) : State := { s with pending := c :: s.pending }

end Sys2Proof.Machine
end

