-- ==== Sys2Proof/Machine/Meanings.lean ====
section
/-! DEFINITION. The meaning of each instruction: it drives `y` and changes nothing else (spec/10_state.md R20, R28). The
functions stand in PowerOfTwo, ReverseBits, Log2 and ReverseBitsLimited. -/

namespace Sys2Proof.Machine

/-- `is_power_of_two(n)`: `y` is 1 or 0 (R70, R73). Port `b` is not read (R54). -/
def execIsPowerOfTwo (n : Word) (s : State) : Host.Outcome State Fault Refusal :=
  .next (driveY (wordOfBool (isPowerOfTwo n)) s)

/-- `reverse_bits(n)` (R80). Port `b` is not read (R54). -/
def execReverseBits (n : Word) (s : State) : Host.Outcome State Fault Refusal :=
  .next (driveY (reverseBits n) s)

/-- `log2_pow2(n)` (R90), with the unit's own `LOG2_OF_ZERO` at 0 (R94). Port `b` is not read (R54). -/
def execLog2Pow2 (n : Word) (s : State) : Host.Outcome State Fault Refusal :=
  .next (driveY (log2Pow2 Config.thisUnit n) s)

/-- `reverse_bits_limited(n, value)` (R100), with the unit's own `RBL_OF_NZERO` at `n = 0` (R106). -/
def execReverseBitsLimited (n value : Word) (s : State) : Host.Outcome State Fault Refusal :=
  .next (driveY (reverseBitsLimited Config.thisUnit n value) s)

end Sys2Proof.Machine
end

