-- ==== Sys2Proof/Machine/Dispatch.lean ====
section
/-! DEFINITION. One arm per instruction. -/

namespace Sys2Proof.Machine

def exec (i : Instr) (s : State) : Host.Outcome State Fault Refusal :=
  match i with
  | .isPowerOfTwo n _ => Sys2Proof.Machine.execIsPowerOfTwo n s
  | .reverseBits n _ => Sys2Proof.Machine.execReverseBits n s
  | .log2Pow2 n _ => Sys2Proof.Machine.execLog2Pow2 n s
  | .reverseBitsLimited n value => Sys2Proof.Machine.execReverseBitsLimited n value s

end Sys2Proof.Machine
end

