-- ==== Sys2Proof/Machine/Step.lean ====
section
/-! DEFINITION. One step: one command (spec/10_state.md R29, 70_reset_and_hazards.md R162). Nothing is fetched: the
operation is the value on `op` (R22, R44). -/

namespace Sys2Proof.Machine

/-- The host issues its next command, the unit answers on `y`, the host samples the answer. -/
def step (s : State) : Host.Outcome State Fault Refusal :=
  match exec (decode (hostIssue s).command) (hostIssue s) with
  | .next t => .next (hostSample s t)
  | .fault r => .fault r
  | .refused r => .refused r

/-- The state in which the command word `w` of `nbits` bits is the command the host issues next (log entries 11, 12): bits
above `nbits` are 0, and the ports have no wire for a bit above 129. -/
def State.withFetchWord (s : State) (nbits w : Nat) : State :=
  hostEnqueueFront (commandOfWord (BitVec.ofNat 130 (w % 2 ^ nbits))) s

end Sys2Proof.Machine
end

