-- ==== Sys2Proof/Machine/Datapath.lean ====
section
/-! DEFINITION. The sub-block structures the scope note names (spec/44_laws_and_datapath.md R120, R125 to R129), as
conforming structures beside the definitions: no meaning of an instruction uses one, and that they compute the defined
functions is stated, not assumed (R84, U7). -/

namespace Sys2Proof.Machine

/-- A stage of the parallel swap: exchange each bit at `p` with the bit at `p XOR distance`, the mask selecting the lower
partners (R125). -/
def swapStage (distance : Nat) (mask x : Word) : Word :=
  (shr x distance &&& mask) ||| ((x &&& mask) <<< distance)

/-- The six stages of the tree by number `t`, of distance `2^t` (R125; the masks are K3 of 93_implementation_defined.md). -/
def treeStage (t : Fin 6) (x : Word) : Word :=
  match t with
  | 0 => swapStage 1 0x5555555555555555#64 x
  | 1 => swapStage 2 0x3333333333333333#64 x
  | 2 => swapStage 4 0x0F0F0F0F0F0F0F0F#64 x
  | 3 => swapStage 8 0x00FF00FF00FF00FF#64 x
  | 4 => swapStage 16 0x0000FFFF0000FFFF#64 x
  | 5 => swapStage 32 0x00000000FFFFFFFF#64 x

/-- The word after each stage, the stages applied in the order of the list. -/
def treeTrace : List (Fin 6) → Word → List Word
  | [], _ => []
  | t :: rest, x => treeStage t x :: treeTrace rest (treeStage t x)

/-- The stages of the list applied in its order. -/
def treeThrough (stages : List (Fin 6)) (x : Word) : Word := stages.foldl (fun r t => treeStage t r) x

/-- `bit_reversal_tree (64-bit)`: the six stages, smallest distance first (R125). -/
def reversalTree (x : Word) : Word := treeThrough [0, 1, 2, 3, 4, 5] x

/-- One stage of the leading-zero counter: if the top `h` bits of `x` are all zero, count them and shift them out
(R126). -/
def clzStage (cx : Nat × Word) (h : Nat) : Nat × Word :=
  if shr cx.2 (64 - h) = 0#64 then (cx.1 + h, cx.2 <<< h) else cx

/-- `lz_counter / clz_unit (64-bit)`: the six-stage binary-search counter (R126; K4). -/
def clzCounter (n : Word) : Nat := ([32, 16, 8, 4, 2, 1].foldl clzStage (0, n)).1

/-- The log2 unit built on the counter: 63 minus the count (R126). -/
def clzIndex (n : Word) : BitIndex := BitVec.ofNat 6 (63 - clzCounter n)

/-- The 6-bit word of the bits `f 0` to `f 5`. -/
def indexOfBits (f : Nat → Bool) : BitIndex := BitVec.ofNat 6 (natOfBits f 6)

/-- `n[63:i+1] == 0`: no bit above `i` is set (R127). -/
def noneAbove (n : Word) (i : Nat) : Bool := shr n (i + 1) == 0#64

/-- `log2_pe_indexer`: the 64-input priority encoder, priority to the highest input (R127). -/
def priorityEncoder (n : Word) : BitIndex :=
  indexOfBits (fun t => (List.range 64).any (fun i => i.testBit t && (n.getLsbD i && noneAbove n i)))

/-- The plain one-hot encoder, right on powers of two and not conforming otherwise (R127). -/
def oneHotEncoder (n : Word) : BitIndex :=
  indexOfBits (fun t => (List.range 64).any (fun i => i.testBit t && n.getLsbD i))

/-- The 64-bit decrementer, with its borrow out of bit 63 as bit 64 (R128). -/
def decrementer (n : Word) : BitVec 65 := (0#1 ++ n) - 1#65

/-- `bitwise_and_identity_test`: the zero detector over `n[i] AND (n -_64 1)[i]`, the borrow discarded (R128). -/
def andIdentityTest (n : Word) : Bool :=
  !(List.range 64).any (fun i => n.getLsbD i && (decrementer n).getLsbD i)

/-- The shifter's 7-bit amount `{w == 0, (0 − w) mod 64}` (R129). -/
def shiftAmount (w : BitIndex) : ShiftAmount := BitVec.ofBool (w == 0#6) ++ (0#6 - w)

/-- One stage of the barrel shifter: by `2^t` if bit `t` of the amount is set (R129). -/
def barrelStage (s : ShiftAmount) (x : Word) (t : Nat) : Word := if s.getLsbD t then shr x (2 ^ t) else x

/-- The barrel shifter on the low six bits of the amount: a shift by the amount modulo 64 (R129). -/
def barrelShifter (s : ShiftAmount) (x : Word) : Word := (List.range 6).foldl (barrelStage s) x

/-- The shifter of `reverse_bits_limited`: the barrel, its output forced to zero when bit 6 of the amount is set (R129). -/
def limitedShifter (s : ShiftAmount) (x : Word) : Word := if s.getLsbD 6 then 0#64 else barrelShifter s x

/-- The dataflow of the whole unit around a given log2 unit (R120). The tree's multiplexer gives `a` when `op` = 1 and `b`
when `op` = 3; what it gives otherwise reaches no output (log entry 16). -/
def unitDatapath (log2Unit : Word → BitIndex) (c : Command) : Word :=
  let tree := reversalTree (if c.op.getLsbD 1 then c.b else c.a)
  let index := log2Unit c.a
  let shifted := limitedShifter (shiftAmount index) tree
  match (c.op.toFin : Fin 4) with
  | 0 => wordOfBool (andIdentityTest c.a)
  | 1 => tree
  | 2 => index.setWidth 64
  | 3 => shifted

/-- The open parameters an implementation of that structure turns out to have: what it does at `n = 0` (R6, R127). -/
def datapathParams (log2Unit : Word → BitIndex) : Config.Params where
  log2OfZero := (log2Unit 0#64).setWidth 64
  rblOfNzero := fun value => limitedShifter (shiftAmount (log2Unit 0#64)) (reversalTree value)

end Sys2Proof.Machine
end

