-- ==== Sys2Proof/Machine/Operands.lean ====
section
/-! DEFINITION. How a host's listing line becomes a command (spec/30_encoding.md R54, R58). There are no immediates and no
addressing modes in the unit: an operand is a whole word on a port (R54). -/

namespace Sys2Proof.Machine

/-- The word an operand puts on a port, given the results of the earlier lines: a literal in `[0, 2^64 − 1]`, or the
result `y<k>` of line `k`, which the host copies (R58); none where the listing is ill formed. -/
def operandWord (ys : List Word) : Operand → Option Word
  | .literal l => if l.spelled && l.inRange then some (BitVec.ofNat 64 l.value) else none
  | .result 0 => none
  | .result (k + 1) => ys[k]?

/-- The command a line issues, given the results of the earlier lines. The `b` field of a one-operand mnemonic is written
as zero (R58). -/
def commandOfLine (ys : List Word) (l : Line) : Option Command :=
  match l.operation, l.operands with
  | .reverseBitsLimited, [n, value] =>
    match operandWord ys n, operandWord ys value with
    | some a, some b => some { op := selectOfOperation .reverseBitsLimited, a := a, b := b }
    | _, _ => none
  | .isPowerOfTwo, [n] =>
    (operandWord ys n).map (fun a => { op := selectOfOperation .isPowerOfTwo, a := a, b := 0#64 })
  | .reverseBits, [n] =>
    (operandWord ys n).map (fun a => { op := selectOfOperation .reverseBits, a := a, b := 0#64 })
  | .log2Pow2, [n] =>
    (operandWord ys n).map (fun a => { op := selectOfOperation .log2Pow2, a := a, b := 0#64 })
  | _, _ => none

end Sys2Proof.Machine
end

