-- ==== Sys2Proof/Machine/HostProgram.lean ====
section
/-! DEFINITION. A host program: a finite list of commands that the host issues one after the other, copying earlier
results into later operands (spec/30_encoding.md R58, 60_exceptions.md R150, decision D17). The unit keeps no position and
no result; the list `ys` is the host's. -/

namespace Sys2Proof.Machine

/-- Issue the lines in order, from the results `ys` of the lines before them; the results of all lines, and the state at
the end. None where a line is ill formed. -/
def runListing : List Word → List Line → State → Option (List Word × State)
  | ys, [], s => some (ys, s)
  | ys, l :: rest, s =>
    match commandOfLine ys l with
    | none => none
    | some c =>
      match step (hostEnqueueFront c s) with
      | .next t => runListing (ys ++ [t.y]) rest t
      | .fault _ => none
      | .refused _ => none

end Sys2Proof.Machine
end

