-- ==== Sys2Proof/Machine/Requirements.lean ====
section
/-! DEFINITION. The source's six quantified invariants as "requirements on every implementation" (spec/44_laws_and_datapath.md
R118): what a function from commands to words must satisfy, whatever structure computes it (R84, U7). Each is about
in-domain commands only, so none depends on an open parameter. -/

namespace Sys2Proof.Machine

/-- 1. "∀ k ∈ [0, 63]: `is_power_of_two(1 << k)` is true", true being the word 1 (R118, R73). -/
def PowersTestTrue (answer : Command → Word) : Prop :=
  ∀ (k : Nat) (b : Word), k ≤ 63 → answer { op := 0#2, a := 1#64 <<< k, b := b } = 1#64

/-- 2. "∀ x ∈ 64-bit: `reverse_bits(reverse_bits(x)) == x`" (R118). -/
def ReversalIsInvolution (answer : Command → Word) : Prop :=
  ∀ x b b' : Word, answer { op := 1#2, a := answer { op := 1#2, a := x, b := b }, b := b' } = x

/-- 3. "∀ w ∈ [0, 63], ∀ v ∈ [0, 2^w): let `n = 1 << w`; then `reverse_bits_limited(n, v) < n`" (R118). -/
def LimitedStaysInRange (answer : Command → Word) : Prop :=
  ∀ (w : Nat) (v : Word), w ≤ 63 → v.toNat < 2 ^ w →
    (answer { op := 3#2, a := 1#64 <<< w, b := v }).toNat < 2 ^ w

/-- 4. "∀ w, v as above: `reverse_bits_limited(n, reverse_bits_limited(n, v)) == v`" (R118). -/
def LimitedIsInvolution (answer : Command → Word) : Prop :=
  ∀ (w : Nat) (v : Word), w ≤ 63 → v.toNat < 2 ^ w →
    answer { op := 3#2, a := 1#64 <<< w, b := answer { op := 3#2, a := 1#64 <<< w, b := v } } = v

/-- 5. "∀ w ∈ [0, 63], let `n = 1 << w`; the multiset of the results for `v ∈ [0, n)` equals `0, …, n−1` (bijection)"
(R118). -/
def LimitedIsBijection (answer : Command → Word) : Prop :=
  ∀ w : Nat, w ≤ 63 →
    (Multiset.range (2 ^ w)).map
        (fun v => (answer { op := 3#2, a := 1#64 <<< w, b := BitVec.ofNat 64 v }).toNat) =
      Multiset.range (2 ^ w)

/-- 6. "∀ k ∈ [0, 63]: `log2_pow2(1 << k) == k`" (R118). -/
def Log2ExactOnPowers (answer : Command → Word) : Prop :=
  ∀ (k : Nat) (b : Word), k ≤ 63 → answer { op := 2#2, a := 1#64 <<< k, b := b } = BitVec.ofNat 64 k

/-- The six requirements on an implementation, given by what it answers to each command (R118). -/
def MeetsSourceInvariants (answer : Command → Word) : Prop :=
  PowersTestTrue answer ∧ ReversalIsInvolution answer ∧ LimitedStaysInRange answer ∧ LimitedIsInvolution answer ∧
    LimitedIsBijection answer ∧ Log2ExactOnPowers answer

end Sys2Proof.Machine
end

