-- ==== Sys2Proof/Machine/Domain.lean ====
section
/-! DEFINITION. The domains of the operations (spec/00_scope.md R11, 30_encoding.md R60). The unit computes none of this
and has no output for it (R141): these are predicates of the spec that a claim takes as a premise. -/

namespace Sys2Proof.Machine

/-- `n` is `2^w` for some `w` in `[0, 63]` (R12, R102); 0 is not. -/
def isTwoToSome (n : Word) : Bool := (List.range 64).any (fun w => n == 1#64 <<< w)

/-- `in_domain(op, a, b)`: the command meets the source's preconditions (R60, from R72, R82, R92, R102). -/
def inDomain (c : Command) : Bool :=
  match operationOfSelect c.op with
  | .isPowerOfTwo => true
  | .reverseBits => true
  | .log2Pow2 => decide (1 ≤ c.a.toNat)
  | .reverseBitsLimited => isTwoToSome c.a && decide (c.b.toNat < c.a.toNat)

/-- The three classes of R11. -/
inductive DomainClass where
  /-- The preconditions hold: the result is normative. -/
  | inside
  /-- A precondition fails and the value is still fixed: a claim should not rest on it. -/
  | outsideDetermined
  /-- The result is one of the two open parameters. -/
  | outsideOpen
deriving DecidableEq, Repr

/-- The class of a command (R11, R60). -/
def domainClass (c : Command) : DomainClass :=
  if inDomain c then .inside else if c.a = 0#64 then .outsideOpen else .outsideDetermined

/-- The check an integrator can compute beside the unit for `reverse_bits_limited`: `a != 0`, `is_power_of_two(a)`,
`b < a` (R141). -/
def hostGuard (n value : Word) : Bool := isPositivePowerOfTwo n && decide (value.toNat < n.toNat)

end Sys2Proof.Machine
end

