-- ==== Sys2Proof/Safety.lean ====
section
/-! DEFINITION. What a safe run is. The unit can't fail (spec/60_exceptions.md R135); what a host can break is the contract:
the preconditions that are "the caller's responsibility" (R141). -/

namespace Sys2Proof.Machine

/-- A step completes: it is neither a fault nor a refusal. -/
def State.CanStep (s : State) : Prop := ∃ t, step s = .next t

/-- The host's list keeps the contract: every command in it is in domain (R60, R141). -/
def State.ContractKept (s : State) : Prop := ∀ c ∈ s.pending, inDomain c = true

/-- The host's list uses neither open parameter (R94, R106). -/
def State.AvoidsOpenValues (s : State) : Prop := ∀ c ∈ s.pending, domainClass c ≠ .outsideOpen

end Sys2Proof.Machine
end

