-- ==== Sys2Proof/WellFormed.lean ====
section
/-! DEFINITION. Which listings are well formed (spec/30_encoding.md R58). An `Instr` needs no check of its own: every
value of `op`, `a` and `b` is a legal command (R56), and the types admit nothing else. What a literal stands for, and
whether it is one, is in Decode.lean. -/

namespace Sys2Proof

/-- An operand of line `line` (counted from 1) is well formed: a literal in range, or the result of an earlier line
(R58). -/
def Operand.wf (line : Nat) : Operand → Bool
  | .literal l => l.spelled && l.inRange
  | .result k => decide (1 ≤ k) && decide (k < line)

/-- A line is well formed: as many operands as its mnemonic takes, each well formed (R58). -/
def Line.wf (line : Nat) (l : Line) : Bool :=
  decide (l.operands.length = l.operation.arity) && l.operands.all (Operand.wf line)

/-- The lines of a listing, the first of them line number `line`, are well formed. -/
def listingWf (line : Nat) : List Line → Bool
  | [] => true
  | l :: rest => l.wf line && listingWf (line + 1) rest

end Sys2Proof
end

