-- ==== Sys2Proof/Certificates/Slice0/Obligations.lean ====
section
/-! DEFINITION. What is stated about the model, for the provers. Each docstring names the rule of spec/ it formalises. -/

open Sys2Proof Sys2Proof.Machine

/-! ### Command words -/

/-- Decoding an encoded instruction gives it back, the ignored operand of the one-operand operations included (R50 to
R54); and so read from the opcode table's numbering, in 17 whole bytes. -/
def Obligations.DecodeOfEncodeIsTheInstruction : Prop :=
  ∀ i : Instr, decodeWord (encode i) = i ∧ decodeTableWord 136 (encode i).toNat = some i

/-- No encoding is reserved, illegal, a hint or custom: every one of the `2^130` command words decodes, to an instruction
that encodes to it, and that instruction answers from every state: no command traps (R56, which rests on the spec's
decision D3). -/
def Obligations.EveryCommandWordIsLegal : Prop :=
  ∀ w : CommandWord, ∃ i, decodeTableWord 136 w.toNat = some i ∧ encode i = w ∧
    ∀ s : State, ∃ t, exec i s = .next t

/-- The command word `{op, a, b}`: `op` in bits 129 to 128, `a` in 127 to 64, `b` in 63 to 0; written in hexadecimal it has
33 digits, the first `op`, the next 16 `a`, the last 16 `b` (R50, R51). -/
def Obligations.CommandWordLayout : Prop :=
  ∀ c : Command,
    (∀ i, i < 64 → (wordOfCommand c).getLsbD i = c.b.getLsbD i) ∧
    (∀ i, i < 64 → (wordOfCommand c).getLsbD (64 + i) = c.a.getLsbD i) ∧
    (∀ i, i < 2 → (wordOfCommand c).getLsbD (128 + i) = c.op.getLsbD i) ∧
    commandOfWord (wordOfCommand c) = c ∧
    ∃ ds as bs : List (Fin 16), hexDigitsOfWord (wordOfCommand c) = ds ++ as ++ bs ∧
      ds.length = 1 ∧ as.length = 16 ∧ bs.length = 16 ∧
      (Literal.hexadecimal ds).value = c.op.toNat ∧
      (Literal.hexadecimal as).value = c.a.toNat ∧
      (Literal.hexadecimal bs).value = c.b.toNat

/-- The four select codes, `n` on port `a` and `value` on port `b` (R52, R54). -/
def Obligations.SelectCodesDecode : Prop :=
  ∀ a b : Word,
    decode { op := 0#2, a := a, b := b } = .isPowerOfTwo a b ∧
    decode { op := 1#2, a := a, b := b } = .reverseBits a b ∧
    decode { op := 2#2, a := a, b := b } = .log2Pow2 a b ∧
    decode { op := 3#2, a := a, b := b } = .reverseBitsLimited a b

/-- The rows of the opcode table (R52): `mask` and `match` of a row admit exactly the words that decode to its
operation. -/
def Obligations.OpcodeTableRowsSelectTheirWords : Prop :=
  ∀ w : CommandWord,
    ((decodeWord w).operation = .isPowerOfTwo ↔
      w &&& 0x300000000000000000000000000000000#130 = 0x000000000000000000000000000000000#130) ∧
    ((decodeWord w).operation = .reverseBits ↔
      w &&& 0x300000000000000000000000000000000#130 = 0x100000000000000000000000000000000#130) ∧
    ((decodeWord w).operation = .log2Pow2 ↔
      w &&& 0x300000000000000000000000000000000#130 = 0x200000000000000000000000000000000#130) ∧
    ((decodeWord w).operation = .reverseBitsLimited ↔
      w &&& 0x300000000000000000000000000000000#130 = 0x300000000000000000000000000000000#130)

/-- Words written out in 95_test_vectors.md decode to the commands they stand for. -/
def Obligations.WrittenOutWordsDecode : Prop :=
  decodeTableWord 136 0x000000000000004000000000000000000 = some (.isPowerOfTwo 1024#64 0#64) ∧
  decodeTableWord 136 0x180000000000000000000000000000000 = some (.reverseBits (1#64 <<< 63) 0#64) ∧
  decodeTableWord 136 0x20000000000000400FFFFFFFFFFFFFFFF = some (.log2Pow2 1024#64 0xFFFFFFFFFFFFFFFF#64) ∧
  decodeTableWord 136 0x30000000000000010000000000000000B = some (.reverseBitsLimited 16#64 11#64)

/-- The model's choice (log entry 11): a number with a bit at 130 or above is no command word, and the decoder refuses
exactly those. -/
def Obligations.DecoderRefusesExactlyBitsAbove129 : Prop :=
  ∀ nbits w : Nat, decodeTableWord nbits w = none ↔ ∃ k, 130 ≤ k ∧ k < nbits ∧ w.testBit k = true

/-! ### A step -/

/-- The host issues the first command of its list on the input ports; the step runs the instruction that command decodes
to in that state; and the host samples `y` as that command's result (R28, R29, R53). The sampling is the model's (log
entry 9). -/
def Obligations.StepRunsTheDecodedCommand : Prop :=
  ∀ (s t : State) (c : Command) (rest : List Command), s.pending = c :: rest →
    exec (decode c) { s with op := c.op, a := c.a, b := c.b, pending := rest } = .next t →
    step s = .next { t with results := t.results ++ [t.y] }

/-- The model's choice (log entry 8): with no command left the host holds the inputs, the unit answers the same command
again, and nothing is sampled. -/
def Obligations.StepWithNothingPendingHoldsTheInputs : Prop :=
  ∀ s t : State, s.pending = [] → exec (decode s.command) s = .next t → step s = .next t

/-- A command word put in front of the host's list is the one the next step runs, whatever the state (log entries 11,
12). -/
def Obligations.PlacedWordIsRunByTheNextStep : Prop :=
  ∀ (s : State) (i : Instr), ∃ t : State,
    exec i { s with op := (commandOf i).op, a := (commandOf i).a, b := (commandOf i).b } = .next t ∧
    step (s.withFetchWord 136 (encode i).toNat) = .next { t with results := t.results ++ [t.y] }

/-- Every command is one step and produces its result, and every finite list of commands is a finite run: no fault, no
refusal, nothing stuck (R162, R135). -/
def Obligations.EveryCommandListRunsToItsEnd : Prop :=
  (∀ s : State, s.CanStep) ∧
  ∀ s : State, ∃ t : State, core.run s.pending.length s = .next t ∧ t.pending = [] ∧
    t.results.length = s.results.length + s.pending.length

/-! ### What each instruction does -/

/-- `is_power_of_two`, select code 0, answers 1 if `n & (n -_64 1)` is 0 and 0 otherwise, for every `n` and whatever is on
port `b`, and changes nothing but `y` (R70; the select code and the zero-extension are the spec's decisions D3, D4). -/
def Obligations.IsPowerOfTwoResult : Prop :=
  ∀ (s : State) (n b : Word),
    decode { op := 0#2, a := n, b := b } = .isPowerOfTwo n b ∧
    exec (.isPowerOfTwo n b) s = .next { s with y := if n &&& (n - 1#64) = 0#64 then 1#64 else 0#64 }

/-- `reverse_bits`, select code 1, answers the word whose bit `i` is bit `63 − i` of `n`, the sum over `i` of
`n[63 − i] * 2^i` and over `j` of `n[j] * 2^(63 − j)`, for every `n` and whatever is on port `b`, and changes nothing but
`y` (R80; the select code is the spec's decision D3). -/
def Obligations.ReverseBitsResult : Prop :=
  ∀ (s : State) (n b : Word), decode { op := 1#2, a := n, b := b } = .reverseBits n b ∧
    ∃ r : Word, exec (.reverseBits n b) s = .next { s with y := r } ∧
      (∀ i, i < 64 → r.getLsbD i = n.getLsbD (63 - i)) ∧
      r.toNat = ∑ i ∈ Finset.range 64, (if n.getLsbD (63 - i) then 2 ^ i else 0) ∧
      r.toNat = ∑ j ∈ Finset.range 64, (if n.getLsbD j then 2 ^ (63 - j) else 0)

/-- `log2_pow2`, select code 2: for `n >= 1` it answers the index `k` of the highest set bit, which is the largest `k` with
`2^k <= n` and is at most 63; for `n = 0` the unit's constant `LOG2_OF_ZERO`, the same from every state, of which nothing
is said. Either way whatever is on port `b`, and nothing but `y` changes (R90; the select code is the spec's decision D3,
the open constant its decision D8). -/
def Obligations.Log2Pow2Result : Prop :=
  ∀ (s : State) (n b : Word), decode { op := 2#2, a := n, b := b } = .log2Pow2 n b ∧
    (1 ≤ n.toNat → ∃ k : Nat, k ≤ 63 ∧
      exec (.log2Pow2 n b) s = .next { s with y := BitVec.ofNat 64 k } ∧
      n.getLsbD k = true ∧ (∀ i, k < i → n.getLsbD i = false) ∧
      2 ^ k ≤ n.toNat ∧ (∀ j, 2 ^ j ≤ n.toNat → j ≤ k)) ∧
    (n = 0#64 → exec (.log2Pow2 n b) s = .next { s with y := Config.log2OfZero })

/-- `reverse_bits_limited`, select code 3: for `n >= 1`, with `w` the index of the highest set bit of `n`, the answer is the
full reversal of `value` shifted right by `64 − w`; its bit `j` is `value[w − 1 − j]` for `j <= w − 1` and 0 for `j >= w`;
it is below `2^w`. For `n = 0` it is the unit's `RBL_OF_NZERO(value)`, the same from every state, of which nothing is said.
Nothing but `y` changes (R100; the select code is the spec's decision D3, the shift by 64 its decision D7, the open function
its decision D9; for a command out of domain the result rests on its decision D6). -/
def Obligations.ReverseBitsLimitedResult : Prop :=
  ∀ (s : State) (n value : Word), decode { op := 3#2, a := n, b := value } = .reverseBitsLimited n value ∧
    (∀ w : Nat, 2 ^ w ≤ n.toNat → n.toNat < 2 ^ (w + 1) → ∃ r : Word,
      exec (.reverseBitsLimited n value) s = .next { s with y := r } ∧
      r = shr (reverseBits value) (64 - w) ∧
      (∀ j, j < 64 → r.getLsbD j = if j < w then value.getLsbD (w - 1 - j) else false) ∧
      r.toNat < 2 ^ w) ∧
    (n = 0#64 → exec (.reverseBitsLimited n value) s = .next { s with y := Config.rblOfNzero value })

/-- The frame of all four instructions: each completes from every state, and every port but `y` and both of the host's
lists are as before (R20, R23, R25). -/
def Obligations.InstructionsChangeOnlyTheOutput : Prop :=
  ∀ (i : Instr) (s : State), ∃ t : State, exec i s = .next t ∧
    t.op = s.op ∧ t.a = s.a ∧ t.b = s.b ∧ t.pending = s.pending ∧ t.results = s.results

/-- For the three one-operand operations the value on port `b` does not affect `y` (R28, R54). -/
def Obligations.OneOperandOperationsIgnorePortB : Prop :=
  ∀ (p : Config.Params) (op : OpSelect) (a b1 b2 : Word), op = 0#2 ∨ op = 1#2 ∨ op = 2#2 →
    unitFunction p { op := op, a := a, b := b1 } = unitFunction p { op := op, a := a, b := b2 } ∧
    ∀ s : State, exec (decode { op := op, a := a, b := b1 }) s = exec (decode { op := op, a := a, b := b2 }) s

/-- The unit's function `F` is the four-way case on `op`, and it is what a step answers on `y` for the command the host
issues (R53, which the spec derives from its decision D3). -/
def Obligations.StepAnswersTheUnitFunction : Prop :=
  (∀ (p : Config.Params) (a b : Word),
    unitFunction p { op := 0#2, a := a, b := b } = (if isPowerOfTwo a then 1#64 else 0#64) ∧
    unitFunction p { op := 1#2, a := a, b := b } = reverseBits a ∧
    unitFunction p { op := 2#2, a := a, b := b } = (if a = 0#64 then p.log2OfZero else log2Pow2 p a) ∧
    unitFunction p { op := 3#2, a := a, b := b } = (if a = 0#64 then p.rblOfNzero b else reverseBitsLimited p a b)) ∧
  ∀ (s : State) (c : Command) (rest : List Command), s.pending = c :: rest → ∃ t : State, step s = .next t ∧
    t.command = c ∧ t.y = unitFunction Config.thisUnit c ∧ t.pending = rest

/-! ### Whole-machine rules -/

/-- At every instant `y = F(op, a, b)` (R28), and the last result sampled is the word on `y`: every step keeps both. The
second half is about the model's own list of results (log entry 9). -/
def Obligations.EveryStepKeepsTheOutputSettled : Prop :=
  ∀ s t : State, s.Settled ∧ (∀ r, s.results.getLast? = some r → r = s.y) → step s = .next t →
    t.Settled ∧ (∀ r, t.results.getLast? = some r → r = t.y)

/-- At power-up the output follows the inputs (R156: `y` is "not a register: follows the inputs at all times"); the values
on the inputs and the empty lists are the model's choice (log entries 2, 12). -/
def Obligations.ResetIsSettledAndEmpty : Prop :=
  State.reset.Settled ∧ State.reset.y = 1#64 ∧ State.reset.op = 0#2 ∧ State.reset.a = 0#64 ∧ State.reset.b = 0#64 ∧
  State.reset.pending = [] ∧ State.reset.results = []

/-- A run over a list of commands is the list of their results, each computed independently:
`run([c1, ..., ck]) = [F(c1), ..., F(ck)]`; and permuting the commands permutes the results and changes none: in two runs
over the same commands in any two orders, the pairs of a command and its result are the same (R29, which the spec
derives). -/
def Obligations.RunIsTheListOfResults : Prop :=
  (∀ s : State, ∃ t : State, core.run s.pending.length s = .next t ∧ t.pending = [] ∧
    t.results = s.results ++ s.pending.map (unitFunction Config.thisUnit)) ∧
  ∀ s1 s2 t1 t2 : State, s1.pending.Perm s2.pending → s1.results = [] → s2.results = [] →
    core.run s1.pending.length s1 = .next t1 → core.run s2.pending.length s2 = .next t2 →
    t1.results.Perm t2.results ∧ (s1.pending.zip t1.results).Perm (s2.pending.zip t2.results)

/-- The result of a command depends on its `op`, `a` and `b` and on nothing else, not on any earlier command: two
machines in any two states that issue the same command sample the same result (R20, R41, R161). -/
def Obligations.ResultDependsOnItsOwnCommandOnly : Prop :=
  ∀ (s1 s2 t1 t2 : State) (c : Command) (rest1 rest2 : List Command),
    s1.pending = c :: rest1 → s2.pending = c :: rest2 → step s1 = .next t1 → step s2 = .next t2 →
    t1.y = t2.y ∧ t1.results = s1.results ++ [t2.y]

/-- Reading `y` again with the same inputs gives the same value and changes nothing: from a settled state with nothing left
to issue, a step is the identity, however many are taken (R38). That the host then holds the inputs is the model's choice
(log entry 8). -/
def Obligations.HoldingTheInputsChangesNothing : Prop :=
  ∀ (s : State) (k : Nat), s.Settled → s.pending = [] → core.run k s = .next s

/-- Two units built with different open parameters differ only on the out-of-domain commands with `a = 0` (R146), which
are those of class `outsideOpen` (R11). -/
def Obligations.ParametersMatterOnlyWhereOpen : Prop :=
  (∀ c : Command, domainClass c = .outsideOpen ↔ (c.op = 2#2 ∨ c.op = 3#2) ∧ c.a = 0#64) ∧
  (∀ (p q : Config.Params) (c : Command), domainClass c ≠ .outsideOpen → unitFunction p c = unitFunction q c) ∧
  (∀ c : Command, domainClass c = .outsideOpen →
    ∃ p q : Config.Params, unitFunction p c ≠ unitFunction q c)

/-- A host that keeps the contract gets results none of which rests on an open parameter (R118, R141): the results are
those of a unit with any parameters whatever. -/
def Obligations.ContractKeptResultsRestOnNoParameter : Prop :=
  ∀ (s t : State) (p : Config.Params), s.ContractKept → core.run s.pending.length s = .next t →
    s.AvoidsOpenValues ∧ t.results = s.results ++ s.pending.map (unitFunction p)

/-! ### Domains -/

/-- `in_domain(op, a, b)` of R60: always for `op` 0 and 1; `a >= 1` for `op` 2; for `op` 3, `a = 2^w` with `w` in `[0, 63]`
and `b < a`, which is equivalently `a != 0 AND is_power_of_two(a) AND b < a` (R102). -/
def Obligations.InDomainIsThePreconditions : Prop :=
  ∀ a b : Word,
    inDomain { op := 0#2, a := a, b := b } = true ∧
    inDomain { op := 1#2, a := a, b := b } = true ∧
    (inDomain { op := 2#2, a := a, b := b } = true ↔ 1 ≤ a.toNat) ∧
    (inDomain { op := 3#2, a := a, b := b } = true ↔ (∃ w, w ≤ 63 ∧ a.toNat = 2 ^ w) ∧ b.toNat < a.toNat) ∧
    (inDomain { op := 3#2, a := a, b := b } = hostGuard a b) ∧
    (hostGuard a b = true ↔ a ≠ 0#64 ∧ isPowerOfTwo a = true ∧ b.toNat < a.toNat)

/-! ### is_power_of_two -/

/-- The subtraction wraps only at 0, where it gives all ones, and `is_power_of_two(0)` is true under any reading of `0 − 1`
that yields a word (R71). -/
def Obligations.DecrementWrapsOnlyAtZero : Prop :=
  (0#64 - 1#64 = 0xFFFFFFFFFFFFFFFF#64) ∧ isPowerOfTwo 0#64 = true ∧ (∀ m : Word, 0#64 &&& m = 0#64) ∧
  ∀ n : Word, 1 ≤ n.toNat → (n - 1#64).toNat = n.toNat - 1

/-- The result is true exactly when at most one bit is set, that is for 0 and for `2^k` with `k` in `[0, 63]`, 65 words in
all; and `n & (n − 1)` is `n` with its lowest set bit cleared (R74). -/
def Obligations.IsPowerOfTwoCharacterised : Prop :=
  (∀ n : Word, isPowerOfTwo n = true ↔ popcount n ≤ 1) ∧
  (∀ n : Word, isPowerOfTwo n = true ↔ n = 0#64 ∨ ∃ k, k ≤ 63 ∧ n = 1#64 <<< k) ∧
  (∃ l : List Word, l.length = 65 ∧ l.Nodup ∧ ∀ n : Word, isPowerOfTwo n = true ↔ n ∈ l) ∧
  ∀ (n : Word) (j : Nat), n.getLsbD j = true → (∀ i, i < j → n.getLsbD i = false) →
    ∀ i, (n &&& (n - 1#64)).getLsbD i = (n.getLsbD i && decide (i ≠ j))

/-! ### reverse_bits -/

/-- `reverse_bits(reverse_bits(x)) == x` for every `x`, and the consequences R83 lists: a bijection on the words, which
preserves `popcount`, acts on each bit position separately, and takes `1 << k` to `1 << (63 − k)`; it does not preserve
order or commute with addition. -/
def Obligations.ReverseBitsIsAnInvolution : Prop :=
  (∀ x : Word, reverseBits (reverseBits x) = x) ∧
  Function.Bijective reverseBits ∧
  (∀ x : Word, popcount (reverseBits x) = popcount x) ∧
  (∀ x z : Word, reverseBits (x ||| z) = reverseBits x ||| reverseBits z) ∧
  (∀ x z : Word, reverseBits (x &&& z) = reverseBits x &&& reverseBits z) ∧
  (∀ k, k ≤ 63 → reverseBits (1#64 <<< k) = 1#64 <<< (63 - k)) ∧
  (∃ x z : Word, x.toNat < z.toNat ∧ (reverseBits z).toNat < (reverseBits x).toNat) ∧
  (∃ x z : Word, reverseBits (x + z) ≠ reverseBits x + reverseBits z)

/-- A word is a fixed point exactly when `n[i] = n[63 − i]` for all `i`; there are `2^32` such words (R85): they are
numbered, without repetition, by the 32-bit words. -/
def Obligations.ReverseBitsFixedPoints : Prop :=
  (∀ n : Word, reverseBits n = n ↔ ∀ i, i ≤ 63 → n.getLsbD i = n.getLsbD (63 - i)) ∧
  ∃ f : BitVec 32 → Word, Function.Injective f ∧ ∀ n : Word, reverseBits n = n ↔ ∃ h, f h = n

/-! ### log2_pow2 -/

/-- On `2^k` the result is exactly `k`; on every `n >= 1`, a power of two or not, it is `floor(log2(n))` (R93). -/
def Obligations.Log2IsExactOnPowersAndFloorOtherwise : Prop :=
  (∀ (p : Config.Params) (k : Nat), k ≤ 63 → log2Pow2 p (1#64 <<< k) = BitVec.ofNat 64 k) ∧
  ∀ (p : Config.Params) (n : Word), 1 ≤ n.toNat → (log2Pow2 p n).toNat = Nat.log 2 n.toNat

/-- Only the highest set bit matters, the function is monotone, and the result cannot exceed 63 (R95). -/
def Obligations.Log2IsMonotoneAndSeesOnlyTheHighestBit : Prop :=
  (∀ (p : Config.Params) (n z : Word), 1 ≤ n.toNat → z.toNat < 2 ^ (log2Pow2 p n).toNat →
    log2Pow2 p (n ||| z) = log2Pow2 p n) ∧
  (∀ (p : Config.Params) (m n : Word), 1 ≤ m.toNat → m.toNat ≤ n.toNat →
    (log2Pow2 p m).toNat ≤ (log2Pow2 p n).toNat) ∧
  (∀ (p : Config.Params) (n : Word), 1 ≤ n.toNat → (log2Pow2 p n).toNat ≤ 63)

/-! ### reverse_bits_limited -/

/-- It is exactly the composition of the other two operations and a shift by 1 to 64 (R101); a host that issues
`log2_pow2(n)` and `reverse_bits(value)` and shifts by itself gets the same word (R59 (2)). -/
def Obligations.ReverseBitsLimitedByParts : Prop :=
  ∀ (s1 s2 s3 t1 t2 t3 : State) (n value : Word), 1 ≤ n.toNat →
    exec (.log2Pow2 n 0#64) s1 = .next t1 → exec (.reverseBits value 0#64) s2 = .next t2 →
    exec (.reverseBitsLimited n value) s3 = .next t3 →
    1 ≤ 64 - t1.y.toNat ∧ 64 - t1.y.toNat ≤ 64 ∧ t3.y = shr t2.y (64 - t1.y.toNat)

/-- The five properties in domain, for every `w` in `[0, 63]`, `n = 2^w` and `v` in `[0, n)`: range preservation,
involution, bijection, identity on unary, endpoints (R107). -/
def Obligations.ReverseBitsLimitedProperties : Prop :=
  ∀ (p : Config.Params) (w : Nat) (n : Word), w ≤ 63 → n = 1#64 <<< w →
    (∀ v : Word, v.toNat < n.toNat → (reverseBitsLimited p n v).toNat < n.toNat) ∧
    (∀ v : Word, v.toNat < n.toNat → reverseBitsLimited p n (reverseBitsLimited p n v) = v) ∧
    Set.BijOn (reverseBitsLimited p n) {v : Word | v.toNat < n.toNat} {v : Word | v.toNat < n.toNat} ∧
    (w = 0 → reverseBitsLimited p n 0#64 = 0#64) ∧
    reverseBitsLimited p n 0#64 = 0#64 ∧ reverseBitsLimited p n (n - 1#64) = n - 1#64

/-- The source's six quantified invariants (R118, `MeetsSourceInvariants`) hold of the unit's function, whatever the open
parameters, and of both structures of the datapath: they are requirements on every implementation. All of them are about
in-domain inputs only: an implementation that agrees on those with one that meets them meets them. -/
def Obligations.EveryImplementationMeetsTheSourceInvariants : Prop :=
  (∀ p : Config.Params, MeetsSourceInvariants (unitFunction p)) ∧
  MeetsSourceInvariants (unitDatapath priorityEncoder) ∧ MeetsSourceInvariants (unitDatapath clzIndex) ∧
  ∀ f g : Command → Word, (∀ c : Command, inDomain c = true → f c = g c) →
    MeetsSourceInvariants f → MeetsSourceInvariants g

/-- The source's six quantified invariants (R118), of the machine: what a host reads on `y` from any state, issuing the
command, or the command and then the same operation on the word it read. In the source's order: 1 powers of two test true;
2 reversing twice gives the word back; 3 and 4 the limited reversal stays below `n` and is an involution; 5 every index
below `n` is the result of exactly one index below `n`; 6 `log2_pow2(1 << k)` is `k`. How a host issues a command is the
model's choice (log entries 1, 9). -/
def Obligations.SourceInvariantsHoldOfTheMachine : Prop :=
  (∀ (s : State) (k : Nat) (b : Word), k ≤ 63 → ∃ t,
    step (hostEnqueueFront { op := 0#2, a := 1#64 <<< k, b := b } s) = .next t ∧ t.y = 1#64) ∧
  (∀ (s : State) (x b b' : Word), ∃ t u,
    step (hostEnqueueFront { op := 1#2, a := x, b := b } s) = .next t ∧
    step (hostEnqueueFront { op := 1#2, a := t.y, b := b' } t) = .next u ∧ u.y = x) ∧
  (∀ (s : State) (w : Nat) (v : Word), w ≤ 63 → v.toNat < 2 ^ w → ∃ t u,
    step (hostEnqueueFront { op := 3#2, a := 1#64 <<< w, b := v } s) = .next t ∧ t.y.toNat < 2 ^ w ∧
    step (hostEnqueueFront { op := 3#2, a := 1#64 <<< w, b := t.y } t) = .next u ∧ u.y = v) ∧
  (∀ (s : State) (w : Nat) (r : Word), w ≤ 63 → r.toNat < 2 ^ w → ∃! v : Word, v.toNat < 2 ^ w ∧ ∃ t,
    step (hostEnqueueFront { op := 3#2, a := 1#64 <<< w, b := v } s) = .next t ∧ t.y = r) ∧
  (∀ (s : State) (k : Nat) (b : Word), k ≤ 63 → ∃ t,
    step (hostEnqueueFront { op := 2#2, a := 1#64 <<< k, b := b } s) = .next t ∧ t.y = BitVec.ofNat 64 k)

/-- Out of domain with `n >= 1` the stated computation applies unchanged (R105, the spec's decision D6): (a) `n` a power of
two and `value >= n` gives the result of `value mod n`; (b) any `n >= 1` gives that of the largest power of two not above
it and of `value` modulo that; (c) `n = 1` gives 0. Range preservation survives in the form `y < 2^w <= n`; involution does
not: `reverse_bits_limited(8, 9) = 4` and `reverse_bits_limited(8, 4) = 1`. -/
def Obligations.OutOfDomainResultIsTheStatedComputation : Prop :=
  ∀ p : Config.Params,
    (∀ (w : Nat) (value : Word), w ≤ 63 →
      reverseBitsLimited p (1#64 <<< w) value =
        reverseBitsLimited p (1#64 <<< w) (BitVec.ofNat 64 (value.toNat % 2 ^ w))) ∧
    (∀ (w : Nat) (n value : Word), 2 ^ w ≤ n.toNat → n.toNat < 2 ^ (w + 1) →
      reverseBitsLimited p n value =
        reverseBitsLimited p (1#64 <<< w) (BitVec.ofNat 64 (value.toNat % 2 ^ w)) ∧
      (reverseBitsLimited p n value).toNat < 2 ^ w) ∧
    (∀ value : Word, reverseBitsLimited p 1#64 value = 0#64) ∧
    reverseBitsLimited p 8#64 9#64 = 4#64 ∧ reverseBitsLimited p 8#64 4#64 = 1#64

/-- The permutation tables for `n` = 1, 2, 4, 8 and 16 (R111). -/
def Obligations.SmallPermutationTables : Prop :=
  ∀ p : Config.Params,
    (List.range 1).map (fun v => (reverseBitsLimited p 1#64 (BitVec.ofNat 64 v)).toNat) = [0] ∧
    (List.range 2).map (fun v => (reverseBitsLimited p 2#64 (BitVec.ofNat 64 v)).toNat) = [0, 1] ∧
    (List.range 4).map (fun v => (reverseBitsLimited p 4#64 (BitVec.ofNat 64 v)).toNat) = [0, 2, 1, 3] ∧
    (List.range 8).map (fun v => (reverseBitsLimited p 8#64 (BitVec.ofNat 64 v)).toNat) =
      [0, 4, 2, 6, 1, 5, 3, 7] ∧
    (List.range 16).map (fun v => (reverseBitsLimited p 16#64 (BitVec.ofNat 64 v)).toNat) =
      [0, 8, 4, 12, 2, 10, 6, 14, 1, 9, 5, 13, 3, 11, 7, 15]

/-! ### Laws that connect the operations -/

/-- Result ranges (R117): `y` in `{0, 1}`; any word; `[0, 63]` for `n >= 1`; below `2^w <= n`, hence below `2^63`, for
`n >= 1`; and at `n = 0` the last two are unconstrained: every word is some unit's result. -/
def Obligations.ResultRanges : Prop :=
  (∀ (p : Config.Params) (a b : Word), unitFunction p { op := 0#2, a := a, b := b } = 0#64 ∨
    unitFunction p { op := 0#2, a := a, b := b } = 1#64) ∧
  (∀ (p : Config.Params) (b y : Word), ∃ a : Word, unitFunction p { op := 1#2, a := a, b := b } = y) ∧
  (∀ (p : Config.Params) (a b : Word), 1 ≤ a.toNat → (unitFunction p { op := 2#2, a := a, b := b }).toNat ≤ 63) ∧
  (∀ (p : Config.Params) (a b : Word), 1 ≤ a.toNat →
    (unitFunction p { op := 3#2, a := a, b := b }).toNat < 2 ^ Nat.log 2 a.toNat ∧ 2 ^ Nat.log 2 a.toNat ≤ a.toNat ∧
    (unitFunction p { op := 3#2, a := a, b := b }).toNat ≤ 2 ^ 63 - 1 ∧
    (unitFunction p { op := 3#2, a := a, b := b }).getLsbD 63 = false) ∧
  (∀ b y : Word, ∃ p : Config.Params, unitFunction p { op := 2#2, a := 0#64, b := b } = y) ∧
  (∀ b y : Word, ∃ p : Config.Params, unitFunction p { op := 3#2, a := 0#64, b := b } = y)

/-- The laws (a) to (f) of R119. -/
def Obligations.LawsConnectingTheOperations : Prop :=
  ∀ p : Config.Params,
    (∀ n : Word, 1 ≤ n.toNat → (isPowerOfTwo n = true ↔ n = 1#64 <<< (log2Pow2 p n).toNat)) ∧
    (∀ n : Word, isPowerOfTwo (reverseBits n) = isPowerOfTwo n) ∧
    (∀ k, k ≤ 63 → log2Pow2 p (reverseBits (1#64 <<< k)) = BitVec.ofNat 64 (63 - k)) ∧
    (∀ n value : Word, 1 ≤ n.toNat →
      reverseBitsLimited p n value = reverseBits (shl value (64 - (log2Pow2 p n).toNat))) ∧
    (∀ n value : Word, 1 ≤ n.toNat →
      reverseBitsLimited p n value =
        reverseBitsLimited p (1#64 <<< (log2Pow2 p n).toNat)
          (BitVec.ofNat 64 (value.toNat % 2 ^ (log2Pow2 p n).toNat))) ∧
    (∀ (w : Nat) (v : Word), 1 ≤ w → w ≤ 63 → v.toNat < 2 ^ w →
      (reverseBitsLimited p (1#64 <<< w) v).getLsbD 0 = v.getLsbD (w - 1) ∧
      (2 ^ (w - 1) ≤ v.toNat ↔ (reverseBitsLimited p (1#64 <<< w) v).toNat % 2 = 1))

/-! ### The sub-block datapaths -/

/-- The tree (R125): stage `t` exchanges every bit at `p` with the bit at `p XOR 2^t`; the stages commute; all six, smallest
first or largest first, are `reverse_bits`; and the worked trace. -/
def Obligations.ReversalTreeIsReverseBits : Prop :=
  (∀ (t : Fin 6) (x : Word) (i : Nat), i < 64 → (treeStage t x).getLsbD i = x.getLsbD (i ^^^ 2 ^ t.val)) ∧
  (∀ (t u : Fin 6) (x : Word), treeStage t (treeStage u x) = treeStage u (treeStage t x)) ∧
  (∀ x : Word, reversalTree x = reverseBits x) ∧
  (∀ x : Word, treeThrough [5, 4, 3, 2, 1, 0] x = reverseBits x) ∧
  treeTrace [0, 1, 2, 3, 4, 5] 0x0123456789ABCDEF#64 =
    [0x02138A9B4657CEDF#64, 0x084C2A6E195D3B7F#64, 0x80C4A2E691D5B3F7#64, 0xC480E6A2D591F7B3#64,
     0xE6A2C480F7B3D591#64, 0xF7B3D591E6A2C480#64]

/-- The leading-zero counter (R126): for every `n >= 1`, `log2_pow2(n) = 63 − clz(n)` with `clz(n)` in `[0, 63]`, the
six-stage counter ends with `clz(n)`, and the index built on it is the result; for `n = 0` the counter ends with 63. -/
def Obligations.LeadingZeroCounterIsLog2 : Prop :=
  (∀ (p : Config.Params) (n : Word), 1 ≤ n.toNat →
    clz n ≤ 63 ∧ (log2Pow2 p n).toNat = 63 - clz n ∧ clzCounter n = clz n ∧
    (clzIndex n).setWidth 64 = log2Pow2 p n) ∧
  clzCounter 0#64 = 63 ∧ clz 0#64 = 64 ∧ clzCounter 0x400#64 = 53

/-- The priority encoder (R127): for every `n >= 1` its index is `log2_pow2(n)` and is `63 − clz(n)`; the one-hot encoder
agrees on powers of two and is not conforming: it gives 3 for 6, the correct value being 2, and 1 for 3. -/
def Obligations.PriorityEncoderIsLog2 : Prop :=
  (∀ (p : Config.Params) (n : Word), 1 ≤ n.toNat →
    (priorityEncoder n).setWidth 64 = log2Pow2 p n ∧ (priorityEncoder n).toNat = 63 - clz n) ∧
  (∀ k, k ≤ 63 → oneHotEncoder (1#64 <<< k) = priorityEncoder (1#64 <<< k)) ∧
  oneHotEncoder 6#64 = 3#6 ∧ priorityEncoder 6#64 = 2#6 ∧ oneHotEncoder 3#64 = 1#6 ∧ priorityEncoder 3#64 = 1#6

/-- The AND identity test (R128): the zero detector over the decremented operand is `is_power_of_two`; the decrementer's
low 64 bits are `n -_64 1`, and its borrow out of bit 63 is 1 only at `n = 0`. -/
def Obligations.AndIdentityTestIsIsPowerOfTwo : Prop :=
  ∀ n : Word, andIdentityTest n = isPowerOfTwo n ∧ (decrementer n).setWidth 64 = n - 1#64 ∧
    ((decrementer n).getLsbD 64 = true ↔ n = 0#64)

/-- The shifter (R129): the 7-bit amount is `64 − w` with bit 6 set only when `w = 0`; the barrel forced to zero by bit 6 is
`shr`; by R119 (d) a left shifter in front of the tree gives the same; and a barrel that drops bit 6 would return
`reverse_bits(value)` for `n = 1`, which agrees for `value = 0` and for no other value. -/
def Obligations.LimitedShifterIsTheRightShift : Prop :=
  (∀ w : BitIndex, (shiftAmount w).toNat = 64 - w.toNat ∧ ((shiftAmount w).getLsbD 6 = true ↔ w = 0#6)) ∧
  (∀ (w : BitIndex) (r : Word), limitedShifter (shiftAmount w) r = shr r (64 - w.toNat)) ∧
  (∀ (w : BitIndex) (value : Word),
    limitedShifter (shiftAmount w) (reversalTree value) = reversalTree (shl value (64 - w.toNat))) ∧
  (∀ value : Word, barrelShifter (shiftAmount 0#6) (reverseBits value) = reverseBits value) ∧
  (∀ (p : Config.Params) (value : Word), reverseBits value = reverseBitsLimited p 1#64 value ↔ value = 0#64)

/-- The dataflow of the unit (R120): built around the leading-zero counter or around the priority encoder, the structure
computes the unit's function `F` for every command, with the open parameters that the structure itself turns out to
have at `n = 0`. -/
def Obligations.DatapathComputesTheUnitFunction : Prop :=
  ∀ c : Command,
    unitDatapath priorityEncoder c = unitFunction (datapathParams priorityEncoder) c ∧
    unitDatapath clzIndex c = unitFunction (datapathParams clzIndex) c

/-! ### Listings -/

/-- A well-formed line of a listing issues a command: of its own operation, `n` on port `a`, `b` written as zero for a
one-operand mnemonic; literals stand for themselves and `y<k>` for the result of line `k` (R58). -/
def Obligations.WellFormedLineIssuesItsCommand : Prop :=
  (∀ (ys : List Word) (l : Line), l.wf (ys.length + 1) = true → ∃ c, commandOfLine ys l = some c ∧
    operationOfSelect c.op = l.operation ∧
    (l.operation.arity = 1 → ∃ n, l.operands = [n] ∧ operandWord ys n = some c.a ∧ c.b = 0#64) ∧
    (l.operation.arity = 2 → ∃ n v, l.operands = [n, v] ∧ operandWord ys n = some c.a ∧
      operandWord ys v = some c.b)) ∧
  (∀ (ys : List Word) (l : Literal), (Operand.literal l).wf (ys.length + 1) = true →
    ∃ x, operandWord ys (.literal l) = some x ∧ x.toNat = l.value) ∧
  (∀ (ys : List Word) (k : Nat) (h : k < ys.length), operandWord ys (.result (k + 1)) = some ys[k])

/-- Every well-formed listing runs to its end: one result a line, which are the results sampled, and the host's list is as
before (R58, R150, R162). -/
def Obligations.WellFormedListingsRunToTheirEnd : Prop :=
  ∀ (lines : List Line) (s : State), listingWf 1 lines = true → ∃ (ys : List Word) (t : State),
    runListing [] lines s = some (ys, t) ∧ ys.length = lines.length ∧ t.results = s.results ++ ys ∧
    t.pending = s.pending
end

