-- ==== Sys2Proof/Laws/Bits.lean ====
section
/-! SUPPORT. What the bit operations of Machine/Bits.lean do, one lemma each. -/

namespace Sys2Proof.Machine

theorem natOfBits_lt_two_pow (f : Nat → Bool) (k : Nat) : natOfBits f k < 2 ^ k := by
  induction k with
  | zero => simp [natOfBits]
  | succ k ih => simp only [natOfBits]; split <;> omega

theorem testBit_natOfBits (f : Nat → Bool) (k i : Nat) :
    (natOfBits f k).testBit i = (decide (i < k) && f i) := by
  induction k with
  | zero => simp [natOfBits]
  | succ k ih =>
    have hlt := natOfBits_lt_two_pow f k
    simp only [natOfBits]
    rcases Nat.lt_trichotomy i k with h | h | h
    · have h' : i < k + 1 := by omega
      cases hf : f k
      · simp [ih, h, h']
      · simp only [if_true]
        rw [Nat.add_comm, Nat.testBit_two_pow_add_gt h, ih]
        simp [h, h']
    · subst h
      cases hf : f i
      · simp [ih]
      · simp only [if_true]
        rw [Nat.add_comm, Nat.testBit_two_pow_add_eq, ih]
        simp
    · have hpow : 2 ^ (k + 1) ≤ 2 ^ i := Nat.pow_le_pow_right (by omega) h
      have hsum : natOfBits f k + (if f k then 2 ^ k else 0) < 2 ^ i := by split <;> omega
      rw [Nat.testBit_lt_two_pow hsum]
      have h' : ¬ i < k + 1 := by omega
      simp [h']

/-- Bit `i` of the word of the bits `f` is `f i` (R7). -/
theorem getLsbD_wordOfBits (f : Nat → Bool) (i : Nat) :
    (wordOfBits f).getLsbD i = (decide (i < 64) && f i) := by
  simp only [wordOfBits, BitVec.getLsbD_ofNat, testBit_natOfBits]
  cases decide (i < 64) <;> simp

/-- `shr` is the floor of the division by `2^s` (R9). -/
theorem toNat_shr (x : Word) (s : Nat) : (shr x s).toNat = x.toNat / 2 ^ s := by
  simp [shr, Nat.shiftRight_eq_div_pow]

theorem getLsbD_shr (x : Word) (s i : Nat) : (shr x s).getLsbD i = x.getLsbD (s + i) := by
  simp [shr]

/-- `shr(x, 64) = 0` (D7), and so is every longer shift. -/
theorem shr_eq_zero_of_le (x : Word) (s : Nat) (h : 64 ≤ s) : shr x s = 0#64 := by
  apply BitVec.eq_of_getLsbD_eq
  intro i _
  rw [getLsbD_shr, BitVec.getLsbD_of_ge _ _ (by omega)]
  simp

theorem toNat_shl (x : Word) (s : Nat) : (shl x s).toNat = x.toNat * 2 ^ s % 2 ^ 64 := by
  simp [shl, Nat.shiftLeft_eq]

theorem getLsbD_shl (x : Word) (s i : Nat) :
    (shl x s).getLsbD i = (decide (i < 64) && (!decide (i < s) && x.getLsbD (i - s))) := by
  simp [shl, Bool.and_assoc]

/-- Two words with the same 64 bits are equal. -/
theorem word_ext (x z : Word) (h : ∀ i, i < 64 → x.getLsbD i = z.getLsbD i) : x = z :=
  BitVec.eq_of_getLsbD_eq h

theorem exists_bit_of_ne_zero (n : Word) (h : n ≠ 0#64) : ∃ i, i < 64 ∧ n.getLsbD i = true := by
  by_contra hno
  apply h
  apply word_ext
  intro i hi
  have hb : ¬ n.getLsbD i = true := fun hb => hno ⟨i, hi, hb⟩
  simpa using hb

theorem highestSetBitBelow_spec (n : Word) (k : Nat) (h : ∃ i, i < k ∧ n.getLsbD i = true) :
    highestSetBitBelow n k < k ∧ n.getLsbD (highestSetBitBelow n k) = true ∧
      ∀ i, highestSetBitBelow n k < i → i < k → n.getLsbD i = false := by
  induction k with
  | zero => obtain ⟨i, hi, _⟩ := h; omega
  | succ k ih =>
    by_cases hk : n.getLsbD k = true
    · have e : highestSetBitBelow n (k + 1) = k := by simp [highestSetBitBelow, hk]
      rw [e]
      exact ⟨by omega, hk, fun i h1 h2 => by omega⟩
    · have e : highestSetBitBelow n (k + 1) = highestSetBitBelow n k := by simp [highestSetBitBelow, hk]
      rw [e]
      have h' : ∃ i, i < k ∧ n.getLsbD i = true := by
        obtain ⟨i, hi, hb⟩ := h
        refine ⟨i, ?_, hb⟩
        rcases Nat.lt_or_ge i k with hik | hik
        · exact hik
        · have : i = k := by omega
          exact absurd (this ▸ hb) hk
      obtain ⟨h1, h2, h3⟩ := ih h'
      refine ⟨by omega, h2, fun i hi hik => ?_⟩
      rcases Nat.lt_or_ge i k with hlt | hge
      · exact h3 i hi hlt
      · have : i = k := by omega
        subst this; simpa using hk

/-- For `n >= 1`: the highest set bit is set, is at most bit 63, and no bit above it is set (R90). -/
theorem highestSetBit_spec (n : Word) (h : n ≠ 0#64) :
    highestSetBit n < 64 ∧ n.getLsbD (highestSetBit n) = true ∧
      ∀ i, highestSetBit n < i → n.getLsbD i = false := by
  obtain ⟨h1, h2, h3⟩ := highestSetBitBelow_spec n 64 (exists_bit_of_ne_zero n h)
  refine ⟨h1, h2, fun i hi => ?_⟩
  rcases Nat.lt_or_ge i 64 with hlt | hge
  · exact h3 i hi hlt
  · exact BitVec.getLsbD_of_ge _ _ hge

/-- `2^k <= n < 2^(k+1)` for the index `k` of the highest set bit (R91). -/
theorem highestSetBit_bounds (n : Word) (h : n ≠ 0#64) :
    2 ^ highestSetBit n ≤ n.toNat ∧ n.toNat < 2 ^ (highestSetBit n + 1) := by
  obtain ⟨_, h2, h3⟩ := highestSetBit_spec n h
  refine ⟨Nat.ge_two_pow_of_testBit h2, ?_⟩
  apply Nat.lt_pow_two_of_testBit
  intro i hi
  exact h3 i (by omega)

/-- The highest set bit is the only `k` with `2^k <= n < 2^(k+1)`. -/
theorem highestSetBit_unique (n : Word) (k : Nat) (h1 : 2 ^ k ≤ n.toNat) (h2 : n.toNat < 2 ^ (k + 1)) :
    highestSetBit n = k := by
  have hn : n ≠ 0#64 := by
    intro h0
    have := Nat.two_pow_pos k
    rw [h0] at h1
    simp at h1
  obtain ⟨b1, b2⟩ := highestSetBit_bounds n hn
  have l1 : k < highestSetBit n + 1 := (Nat.pow_lt_pow_iff_right (by omega)).mp (Nat.lt_of_le_of_lt h1 b2)
  have l2 : highestSetBit n < k + 1 := (Nat.pow_lt_pow_iff_right (by omega)).mp (Nat.lt_of_le_of_lt b1 h2)
  omega

theorem leadingZerosBelow_spec (x : Word) (k : Nat) (h : ∃ i, i < k ∧ x.getLsbD i = true) :
    leadingZerosBelow x k + highestSetBitBelow x k + 1 = k := by
  induction k with
  | zero => obtain ⟨i, hi, _⟩ := h; omega
  | succ k ih =>
    by_cases hk : x.getLsbD k = true
    · simp [leadingZerosBelow, highestSetBitBelow, hk]
    · have h' : ∃ i, i < k ∧ x.getLsbD i = true := by
        obtain ⟨i, hi, hb⟩ := h
        refine ⟨i, ?_, hb⟩
        rcases Nat.lt_or_ge i k with hik | hik
        · exact hik
        · have : i = k := by omega
          exact absurd (this ▸ hb) hk
      have := ih h'
      simp only [leadingZerosBelow, highestSetBitBelow, hk]
      simp at *
      omega

/-- The leading zeros and the highest set bit make up the word: `clz(n) + k = 63` for `n >= 1` (R9). -/
theorem clz_add_highestSetBit (n : Word) (h : n ≠ 0#64) : clz n + highestSetBit n = 63 := by
  have := leadingZerosBelow_spec n 64 (exists_bit_of_ne_zero n h)
  simp only [clz, highestSetBit]
  omega

end Sys2Proof.Machine
end

