-- ==== Sys2Proof/Laws/Datapath.lean ====
section
/-! SUPPORT. What the building blocks of the datapaths do, one lemma each. -/

namespace Sys2Proof.Machine

/-- Bit `i` after a swap stage: the bit `distance` above where the mask has a 1 at `i`, or the bit `distance` below where
the mask has a 1 there (R125). -/
theorem getLsbD_swapStage (distance : Nat) (mask x : Word) (i : Nat) :
    (swapStage distance mask x).getLsbD i =
      ((x.getLsbD (distance + i) && mask.getLsbD i) ||
        (decide (i < 64) && !decide (i < distance) && (x.getLsbD (i - distance) && mask.getLsbD (i - distance)))) := by
  simp [swapStage, getLsbD_shr]

/-- No bit above `i` is set, said of the bits (R127). -/
theorem noneAbove_iff (n : Word) (i : Nat) : noneAbove n i = true ↔ ∀ j, i < j → n.getLsbD j = false := by
  simp only [noneAbove, beq_iff_eq]
  constructor
  · intro h j hj
    have hb := congrArg (fun x => BitVec.getLsbD x (j - (i + 1))) h
    simp only [getLsbD_shr, BitVec.getLsbD_zero] at hb
    rwa [show i + 1 + (j - (i + 1)) = j by omega] at hb
  · intro h
    apply word_ext
    intro j _
    rw [getLsbD_shr, BitVec.getLsbD_zero]
    exact h _ (by omega)

/-- A stage of the barrel shifter (R129). -/
theorem barrelStage_eq_shr (s : ShiftAmount) (x : Word) (t : Nat) :
    barrelStage s x t = shr x (if s.getLsbD t then 2 ^ t else 0) := by
  cases h : s.getLsbD t <;> simp [barrelStage, h, shr]

theorem shr_shr (x : Word) (s t : Nat) : shr (shr x s) t = shr x (s + t) := by
  apply word_ext
  intro i _
  simp only [getLsbD_shr]
  rw [Nat.add_assoc]

end Sys2Proof.Machine
end

