-- ==== Sys2Proof/Laws/Functions.lean ====
section
/-! SUPPORT. One spec lemma per operation's function; later proofs cite these and unfold none of them. -/

namespace Sys2Proof.Machine

theorem isPowerOfTwo_eq_true_iff (n : Word) : isPowerOfTwo n = true ↔ n &&& (n - 1#64) = 0#64 := by
  simp [isPowerOfTwo]

theorem getLsbD_reverseBits (n : Word) (i : Nat) :
    (reverseBits n).getLsbD i = (decide (i < 64) && n.getLsbD (63 - i)) :=
  getLsbD_wordOfBits _ i

theorem log2Pow2_zero (p : Config.Params) : log2Pow2 p 0#64 = p.log2OfZero := by
  simp [log2Pow2]

theorem log2Pow2_of_ne_zero (p : Config.Params) (n : Word) (h : n ≠ 0#64) :
    log2Pow2 p n = BitVec.ofNat 64 (highestSetBit n) := by
  simp [log2Pow2, h]

theorem toNat_log2Pow2 (p : Config.Params) (n : Word) (h : n ≠ 0#64) :
    (log2Pow2 p n).toNat = highestSetBit n := by
  have := (highestSetBit_spec n h).1
  rw [log2Pow2_of_ne_zero p n h, BitVec.toNat_ofNat, Nat.mod_eq_of_lt (by omega)]

theorem reverseBitsLimited_zero (p : Config.Params) (value : Word) :
    reverseBitsLimited p 0#64 value = p.rblOfNzero value := by
  simp [reverseBitsLimited]

theorem reverseBitsLimited_of_ne_zero (p : Config.Params) (n value : Word) (h : n ≠ 0#64) :
    reverseBitsLimited p n value = shr (reverseBits value) (64 - highestSetBit n) := by
  simp [reverseBitsLimited, h, toNat_log2Pow2 p n h]

/-- The bit-level form: the low `w` bits of `value`, reversed, and zeros above (R103). -/
theorem getLsbD_reverseBitsLimited (p : Config.Params) (n value : Word) (h : n ≠ 0#64) (j : Nat) :
    (reverseBitsLimited p n value).getLsbD j =
      (decide (j < highestSetBit n) && value.getLsbD (highestSetBit n - 1 - j)) := by
  have hw := (highestSetBit_spec n h).1
  rw [reverseBitsLimited_of_ne_zero p n value h, getLsbD_shr, getLsbD_reverseBits]
  by_cases hj : j < highestSetBit n
  · have e1 : 64 - highestSetBit n + j < 64 := by omega
    have e2 : 63 - (64 - highestSetBit n + j) = highestSetBit n - 1 - j := by omega
    simp [hj, e1, e2]
  · have e1 : ¬ 64 - highestSetBit n + j < 64 := by omega
    simp [hj, e1]

theorem operationOfSelect_selectOfOperation (o : Operation) : operationOfSelect (selectOfOperation o) = o := by
  cases o <;> rfl

theorem selectOfOperation_operationOfSelect : ∀ op : OpSelect, selectOfOperation (operationOfSelect op) = op := by
  decide

end Sys2Proof.Machine
end

