-- ==== Sys2Proof/Laws/Domain.lean ====
section
/-! SUPPORT. The words `2^w`, and the domains in terms of them. -/

namespace Sys2Proof.Machine

theorem one_le_toNat_iff (n : Word) : 1 ≤ n.toNat ↔ n ≠ 0#64 := by
  constructor
  · intro h h0
    subst h0
    simp at h
  · intro h
    have hpos : n.toNat ≠ 0 := fun h0 => h (BitVec.eq_of_toNat_eq (by simpa using h0))
    omega

theorem toNat_one_shiftLeft (w : Nat) (h : w ≤ 63) : (1#64 <<< w : Word).toNat = 2 ^ w := by
  have := Nat.pow_lt_pow_right (show 1 < 2 by omega) (show w < 64 by omega)
  simp only [BitVec.toNat_shiftLeft, BitVec.toNat_ofNat, Nat.shiftLeft_eq]
  omega

theorem getLsbD_one_shiftLeft (w i : Nat) (h : w ≤ 63) : (1#64 <<< w : Word).getLsbD i = decide (i = w) := by
  rw [← BitVec.testBit_toNat, toNat_one_shiftLeft w h, Nat.testBit_two_pow]
  simp [eq_comm]

theorem one_shiftLeft_ne_zero (w : Nat) (h : w ≤ 63) : (1#64 <<< w : Word) ≠ 0#64 := by
  rw [← one_le_toNat_iff, toNat_one_shiftLeft w h]
  exact Nat.one_le_two_pow

/-- The window of `n = 2^w` is `w` (R93, R102). -/
theorem highestSetBit_one_shiftLeft (w : Nat) (h : w ≤ 63) : highestSetBit (1#64 <<< w) = w := by
  apply highestSetBit_unique <;> rw [toNat_one_shiftLeft w h]
  exact Nat.pow_lt_pow_right (by omega) (by omega)

theorem isTwoToSome_iff (n : Word) : isTwoToSome n = true ↔ ∃ w, w ≤ 63 ∧ n = 1#64 <<< w := by
  simp only [isTwoToSome, List.any_eq_true, List.mem_range, beq_iff_eq]
  constructor <;> rintro ⟨w, h, e⟩ <;> exact ⟨w, by omega, e⟩

theorem isPositivePowerOfTwo_iff (n : Word) :
    isPositivePowerOfTwo n = true ↔ n ≠ 0#64 ∧ isPowerOfTwo n = true := by
  simp [isPositivePowerOfTwo]

end Sys2Proof.Machine
end

