-- ==== Sys2Proof/Laws/Encoding.lean ====
section
/-! SUPPORT. The command word of a command, bit by bit and as a number, and when the decoder refuses (spec/30_encoding.md
R50, R51). -/

namespace Sys2Proof

theorem getLsbD_wordOfCommand (c : Command) (i : Nat) :
    (wordOfCommand c).getLsbD i =
      if i < 64 then c.b.getLsbD i else if i < 128 then c.a.getLsbD (i - 64) else c.op.getLsbD (i - 128) := by
  have whole := BitVec.getLsbD_append (x := c.op ++ c.a) (y := c.b) (i := i)
  have upper := BitVec.getLsbD_append (x := c.op) (y := c.a) (i := i - 64)
  have unfolded : (wordOfCommand c).getLsbD i = (c.op ++ c.a ++ c.b).getLsbD i := rfl
  rw [unfolded, whole, upper]
  by_cases h : i < 64
  · simp [h]
  · by_cases h' : i < 128
    · simp [h, h', show i - 64 < 64 by omega]
    · simp [h, h', show ¬ i - 64 < 64 by omega, show i - 64 - 64 = i - 128 by omega]

theorem toNat_wordOfCommand (c : Command) :
    (wordOfCommand c).toNat = c.op.toNat * 2 ^ 128 + c.a.toNat * 2 ^ 64 + c.b.toNat := by
  have unfolded : (wordOfCommand c).toNat = (c.op ++ c.a ++ c.b).toNat := rfl
  rw [unfolded, BitVec.toNat_append, BitVec.toNat_append, ← Nat.shiftLeft_add_eq_or_of_lt c.b.isLt,
    ← Nat.shiftLeft_add_eq_or_of_lt c.a.isLt]
  simp only [Nat.shiftLeft_eq]
  omega

theorem decodeTableWord_of_lt (nbits w : Nat) (h : w % 2 ^ nbits < 2 ^ 130) :
    decodeTableWord nbits w = some (decodeWord (BitVec.ofNat 130 (w % 2 ^ nbits))) := by
  unfold decodeTableWord decodeBits
  rw [if_pos h]

theorem decodeTableWord_of_not_lt (nbits w : Nat) (h : ¬ w % 2 ^ nbits < 2 ^ 130) :
    decodeTableWord nbits w = none := by
  unfold decodeTableWord decodeBits
  rw [if_neg h]

end Sys2Proof
end

