-- ==== Sys2Proof/Laws/Listing.lean ====
section
/-! SUPPORT. A well-formed operand stands for a word (spec/30_encoding.md R58). -/

namespace Sys2Proof.Machine

theorem operandWord_of_wf (ys : List Word) (o : Operand) (h : o.wf (ys.length + 1) = true) :
    ∃ x, operandWord ys o = some x := by
  cases o with
  | literal l =>
    simp only [Operand.wf] at h
    exact ⟨BitVec.ofNat 64 l.value, by simp [operandWord, h]⟩
  | result k =>
    cases k with
    | zero => simp [Operand.wf] at h
    | succ k =>
      simp only [Operand.wf, Bool.and_eq_true, decide_eq_true_eq] at h
      exact ⟨ys[k]'(by omega), by simp [operandWord, show k < ys.length by omega]⟩

end Sys2Proof.Machine
end

