-- ==== Sys2Proof/Laws/PerInstr.lean ====
section
/-! SUPPORT. Statements made instruction by instruction. -/

/-- The select code and the operand ports of the opcode table's row (spec/30_encoding.md R52, R54). -/
def Sys2Proof.Laws.TableRow.Statement (i : Sys2Proof.Instr) : Prop :=
  (Sys2Proof.commandOf i).op = Sys2Proof.selectOfOperation i.operation ∧
  Sys2Proof.operationOfSelect (Sys2Proof.commandOf i).op = i.operation ∧
  Sys2Proof.decode (Sys2Proof.commandOf i) = i

theorem Sys2Proof.Laws.TableRow.isPowerOfTwo (n b : Sys2Proof.Word) :
    Sys2Proof.Laws.TableRow.Statement (.isPowerOfTwo n b) := ⟨rfl, rfl, rfl⟩

theorem Sys2Proof.Laws.TableRow.reverseBits (n b : Sys2Proof.Word) :
    Sys2Proof.Laws.TableRow.Statement (.reverseBits n b) := ⟨rfl, rfl, rfl⟩

theorem Sys2Proof.Laws.TableRow.log2Pow2 (n b : Sys2Proof.Word) :
    Sys2Proof.Laws.TableRow.Statement (.log2Pow2 n b) := ⟨rfl, rfl, rfl⟩

theorem Sys2Proof.Laws.TableRow.reverseBitsLimited (n value : Sys2Proof.Word) :
    Sys2Proof.Laws.TableRow.Statement (.reverseBitsLimited n value) := ⟨rfl, rfl, rfl⟩
end

