-- ==== Sys2Proof/Laws/Requirements.lean ====
section
/-! SUPPORT. How the source's invariants (spec/44_laws_and_datapath.md R118) follow from one another. -/

namespace Sys2Proof.Machine

/-- "An involution on a finite set that maps the set into itself is a permutation of it" (R107): invariant 5 follows from
3 and 4, for every implementation. -/
theorem limitedIsBijection_of_range_of_involution (answer : Command → Word) (range : LimitedStaysInRange answer)
    (involution : LimitedIsInvolution answer) : LimitedIsBijection answer := by
  intro w hw
  have pow : 2 ^ w < 2 ^ 64 := Nat.pow_lt_pow_right (by omega) (by omega)
  have value : ∀ v, v < 2 ^ w → (BitVec.ofNat 64 v : Word).toNat = v := fun v hv => by
    rw [BitVec.toNat_ofNat, Nat.mod_eq_of_lt (by omega)]
  have maps : ∀ v ∈ Finset.range (2 ^ w),
      (answer { op := 3#2, a := 1#64 <<< w, b := BitVec.ofNat 64 v }).toNat ∈ Finset.range (2 ^ w) := fun v hv => by
    rw [Finset.mem_range] at *
    exact range w _ hw (by rw [value v hv]; exact hv)
  have injective : Set.InjOn
      (fun v => (answer { op := 3#2, a := 1#64 <<< w, b := BitVec.ofNat 64 v }).toNat) (Finset.range (2 ^ w)) := by
    intro v hv u hu e
    rw [Finset.mem_coe, Finset.mem_range] at hv hu
    have e' := BitVec.eq_of_toNat_eq e
    have iv := involution w (BitVec.ofNat 64 v) hw (by rw [value v hv]; exact hv)
    have iu := involution w (BitVec.ofNat 64 u) hw (by rw [value u hu]; exact hu)
    rw [e', iu] at iv
    rw [← value v hv, ← value u hu, iv]
  have image := Finset.eq_of_subset_of_card_le (Finset.image_subset_iff.mpr maps)
    (by rw [Finset.card_image_of_injOn injective])
  have asMultiset := congrArg Finset.val image
  rw [Finset.image_val_of_injOn injective] at asMultiset
  exact asMultiset

end Sys2Proof.Machine
end

