-- ==== Sys2Proof/Laws/State.lean ====
section
/-! SUPPORT. One lemma per field per update of the state. -/

namespace Sys2Proof.Machine

@[simp] theorem driveY_op (v : Word) (s : State) : (driveY v s).op = s.op := rfl
@[simp] theorem driveY_a (v : Word) (s : State) : (driveY v s).a = s.a := rfl
@[simp] theorem driveY_b (v : Word) (s : State) : (driveY v s).b = s.b := rfl
@[simp] theorem driveY_y (v : Word) (s : State) : (driveY v s).y = v := rfl
@[simp] theorem driveY_pending (v : Word) (s : State) : (driveY v s).pending = s.pending := rfl
@[simp] theorem driveY_results (v : Word) (s : State) : (driveY v s).results = s.results := rfl
@[simp] theorem driveY_command (v : Word) (s : State) : (driveY v s).command = s.command := rfl

@[simp] theorem driveInputs_op (c : Command) (s : State) : (driveInputs c s).op = c.op := rfl
@[simp] theorem driveInputs_a (c : Command) (s : State) : (driveInputs c s).a = c.a := rfl
@[simp] theorem driveInputs_b (c : Command) (s : State) : (driveInputs c s).b = c.b := rfl
@[simp] theorem driveInputs_y (c : Command) (s : State) : (driveInputs c s).y = s.y := rfl
@[simp] theorem driveInputs_pending (c : Command) (s : State) : (driveInputs c s).pending = s.pending := rfl
@[simp] theorem driveInputs_results (c : Command) (s : State) : (driveInputs c s).results = s.results := rfl
@[simp] theorem driveInputs_command (c : Command) (s : State) : (driveInputs c s).command = c := rfl

@[simp] theorem hostEnqueueFront_op (c : Command) (s : State) : (hostEnqueueFront c s).op = s.op := rfl
@[simp] theorem hostEnqueueFront_a (c : Command) (s : State) : (hostEnqueueFront c s).a = s.a := rfl
@[simp] theorem hostEnqueueFront_b (c : Command) (s : State) : (hostEnqueueFront c s).b = s.b := rfl
@[simp] theorem hostEnqueueFront_y (c : Command) (s : State) : (hostEnqueueFront c s).y = s.y := rfl
@[simp] theorem hostEnqueueFront_pending (c : Command) (s : State) :
    (hostEnqueueFront c s).pending = c :: s.pending := rfl
@[simp] theorem hostEnqueueFront_results (c : Command) (s : State) :
    (hostEnqueueFront c s).results = s.results := rfl

theorem hostIssue_of_nil (s : State) (h : s.pending = []) : hostIssue s = s := by
  simp [hostIssue, h]

theorem hostIssue_of_cons (s : State) (c : Command) (rest : List Command) (h : s.pending = c :: rest) :
    hostIssue s = driveInputs c { s with pending := rest } := by
  simp [hostIssue, h]

theorem hostSample_of_nil (s t : State) (h : s.pending = []) : hostSample s t = t := by
  simp [hostSample, h]

theorem hostSample_of_cons (s t : State) (c : Command) (rest : List Command) (h : s.pending = c :: rest) :
    hostSample s t = { t with results := t.results ++ [t.y] } := by
  simp [hostSample, h]

end Sys2Proof.Machine
end

