-- ==== Sys2Proof/Laws/Step.lean ====
section
/-! SUPPORT. Everything an instruction and a step can do, said once. -/

namespace Sys2Proof.Machine

/-- Every instruction answers the next state in which `y` is the unit's function of the command it encodes to. -/
theorem exec_eq_driveY (i : Instr) (s : State) :
    exec i s = .next (driveY (unitFunction Config.thisUnit (commandOf i)) s) := by
  cases i <;> rfl

theorem commandOf_decode (c : Command) : commandOf (decode c) = c := by
  obtain ⟨op, a, b⟩ := c
  have h : ∀ op : OpSelect, op = 0#2 ∨ op = 1#2 ∨ op = 2#2 ∨ op = 3#2 := by decide
  rcases h op with h | h | h | h <;> subst h <;> rfl

/-- A step always answers: the host issues, the unit drives `y`, the host samples. -/
theorem step_eq (s : State) :
    step s = .next (hostSample s (driveY (unitFunction Config.thisUnit (hostIssue s).command) (hostIssue s))) := by
  simp [step, exec_eq_driveY, commandOf_decode]

/-- The two cases of a step. -/
theorem step_cases (s t : State) (h : step s = .next t) :
    (s.pending = [] ∧ t = driveY (unitFunction Config.thisUnit s.command) s) ∨
    ∃ c rest, s.pending = c :: rest ∧
      t = { op := c.op, a := c.a, b := c.b, y := unitFunction Config.thisUnit c, pending := rest,
            results := s.results ++ [unitFunction Config.thisUnit c] } := by
  rw [step_eq] at h
  injection h with h
  cases hp : s.pending with
  | nil =>
    rw [hostSample_of_nil _ _ hp, hostIssue_of_nil _ hp] at h
    exact Or.inl ⟨rfl, h.symm⟩
  | cons c rest =>
    rw [hostSample_of_cons _ _ c rest hp, hostIssue_of_cons _ c rest hp] at h
    exact Or.inr ⟨c, rest, rfl, h.symm⟩

/-- The first of `k + 1` steps of any machine behind the host's interface. -/
theorem run_succ (M : Host.Core) (s t : M.State) (k : Nat) (h : M.step s = .next t) :
    M.run (k + 1) s = M.run k t := by
  simp only [Host.Core.run, h]

/-- The first of `k + 1` steps of this one. -/
theorem core_run_succ (s t : State) (k : Nat) (h : step s = .next t) : core.run (k + 1) s = core.run k t :=
  run_succ core s t k h

end Sys2Proof.Machine
end

