-- ==== Sys2Proof/Machine/Listing.lean ====
section
/-! DEFINITION. The text of a listing line: `<mnemonic>(<operands>)  ; cmd = 0x<33 hex digits>  ; y = <result>`
(spec/30_encoding.md R58). -/

namespace Sys2Proof.Machine

/-- A digit, upper case as in the spec's listings (R7, R58). -/
def digitText (d : Nat) : Char := "0123456789ABCDEF".toList.getD d '0'

/-- A digit string, most significant digit first. -/
def digitsText (ds : List Nat) : String := String.ofList (ds.map digitText)

/-- A literal in the form it was written in (R58). -/
def literalText : Literal → String
  | .decimal ds => digitsText (ds.map Fin.val)
  | .hexadecimal ds => "0x" ++ digitsText (ds.map Fin.val)
  | .binary ds => "0b" ++ digitsText (ds.map Fin.val)
  | .oneShiftedLeft k => "1 << " ++ String.ofList (Nat.toDigits 10 k)

/-- An operand: a literal, or `y1`, `y2`, … (R58). -/
def operandText : Operand → String
  | .literal l => literalText l
  | .result k => "y" ++ String.ofList (Nat.toDigits 10 k)

/-- The call: the mnemonic and its operands in the source's function notation (R58). -/
def callText (l : Line) : String :=
  l.operation.mnemonic ++ "(" ++ ", ".intercalate (l.operands.map operandText) ++ ")"

/-- A whole listing line, the result as a 64-bit word in hexadecimal (R50, R58). -/
def listingLineText (l : Line) (c : Command) (y : Word) : String :=
  callText l ++ "  ; cmd = 0x" ++ digitsText ((hexDigitsOfWord (wordOfCommand c)).map Fin.val) ++
    "  ; y = 0x" ++ digitsText ((hexDigits y.toNat 16).map Fin.val)

end Sys2Proof.Machine
end

