-- ==== Sys2Proof/Tests/Slice0.lean ====
section
/-! SUPPORT. The model's own tests. Every expected value is one that spec/95_test_vectors.md or a corner table of files 40
to 44 prints. -/

namespace Sys2Proof.Tests

open Sys2Proof Sys2Proof.Machine

/-- The word on `y` after a step; none where the machine stops. -/
def outputOf : Host.Outcome State Fault Refusal → Option Word
  | .next s => some s.y
  | .fault _ => none
  | .refused _ => none

/-- A small state: reset, with the given commands waiting. -/
def waiting (cs : List Command) : State := { State.reset with pending := cs }

/-! ### Decoding: words written out bit by bit -/

theorem test_decode_is_power_of_two_1024 :
    decodeTableWord 136 0x000000000000004000000000000000000 = some (.isPowerOfTwo 1024#64 0#64) := by decide

theorem test_decode_reverse_bits_top_bit :
    decodeTableWord 136 0x180000000000000000000000000000000 = some (.reverseBits 0x8000000000000000#64 0#64) := by
  decide

theorem test_decode_log2_pow2_with_b :
    decodeTableWord 136 0x20000000000000400FFFFFFFFFFFFFFFF =
      some (.log2Pow2 1024#64 0xFFFFFFFFFFFFFFFF#64) := by decide

theorem test_decode_reverse_bits_limited_16_11 :
    decodeTableWord 136 0x30000000000000010000000000000000B = some (.reverseBitsLimited 16#64 11#64) := by decide

theorem test_encode_reverse_bits_limited_8_6 :
    encode (.reverseBitsLimited 8#64 6#64) = 0x300000000000000080000000000000006#130 := by decide

theorem test_decode_refuses_bit_130 : decodeTableWord 136 (2 ^ 130) = none := by decide

theorem test_decode_takes_bit_129 : decodeTableWord 136 (2 ^ 129) = some (.log2Pow2 0#64 0#64) := by decide

theorem test_mnemonics :
    [Operation.isPowerOfTwo, .reverseBits, .log2Pow2, .reverseBitsLimited].map Operation.mnemonic =
      ["is_power_of_two", "reverse_bits", "log2_pow2", "reverse_bits_limited"] := by decide

/-! ### One step of each instruction -/

theorem test_is_power_of_two_of_zero :
    outputOf (step (State.reset.withFetchWord 136 0x000000000000000000000000000000000)) = some 1#64 := by decide

theorem test_is_power_of_two_1023_ignores_b :
    outputOf (step (State.reset.withFetchWord 136 0x000000000000003FFFFFFFFFFFFFFFFFF)) = some 0#64 := by decide

theorem test_reverse_bits_of_digits :
    outputOf (step (State.reset.withFetchWord 136 0x10123456789ABCDEF0000000000000000)) =
      some 0xF7B3D591E6A2C480#64 := by decide

theorem test_reverse_bits_reads_a_not_b :
    outputOf (step (State.reset.withFetchWord 136 0x10000000000000001FFFFFFFFFFFFFFFF)) =
      some 0x8000000000000000#64 := by decide

theorem test_log2_pow2_floor :
    outputOf (step (State.reset.withFetchWord 136 0x200000000000003FF0000000000000000)) = some 9#64 := by decide

theorem test_log2_pow2_all_ones :
    outputOf (step (State.reset.withFetchWord 136 0x2FFFFFFFFFFFFFFFF0000000000000000)) = some 63#64 := by decide

theorem test_reverse_bits_limited_largest_window :
    outputOf (step (State.reset.withFetchWord 136 0x380000000000000000123456789ABCDEF)) =
      some 0x7BD9EAC8F3516240#64 := by decide

theorem test_reverse_bits_limited_shift_by_64 :
    outputOf (step (State.reset.withFetchWord 136 0x30000000000000001FFFFFFFFFFFFFFFF)) = some 0#64 := by decide

/-! ### Domains -/

theorem test_domain_classes :
    [domainClass { op := 0#2, a := 0#64, b := 0#64 }, domainClass { op := 2#2, a := 0#64, b := 0#64 },
     domainClass { op := 3#2, a := 0#64, b := 5#64 }, domainClass { op := 3#2, a := 8#64, b := 7#64 },
     domainClass { op := 3#2, a := 8#64, b := 8#64 }, domainClass { op := 3#2, a := 12#64, b := 5#64 }] =
    [.inside, .outsideOpen, .outsideOpen, .inside, .outsideDetermined, .outsideDetermined] := by decide

/-! ### Listings: the check refuses each ill-formed term -/

theorem test_wf_refuses_literal_out_of_range :
    Operand.wf 1 (.literal (.hexadecimal [1, 0, 0, 0, 0, 0, 0, 0, 0, 0, 0, 0, 0, 0, 0, 0, 0])) = false := by decide

theorem test_wf_refuses_shift_by_64 : Operand.wf 1 (.literal (.oneShiftedLeft 64)) = false := by decide

theorem test_wf_refuses_empty_literal : Operand.wf 1 (.literal (.decimal [])) = false := by decide

theorem test_wf_refuses_own_result : Operand.wf 2 (.result 2) = false := by decide

theorem test_wf_refuses_result_zero : Operand.wf 2 (.result 0) = false := by decide

theorem test_wf_refuses_missing_operand :
    Line.wf 1 { operation := .reverseBitsLimited, operands := [.literal (.decimal [8])] } = false := by decide

theorem test_wf_accepts_a_listing :
    listingWf 1 [{ operation := .reverseBitsLimited, operands := [.literal (.decimal [1, 6]), .literal (.binary [1, 0, 1, 1])] },
                 { operation := .reverseBits, operands := [.result 1] }] = true := by decide

theorem test_listing_line_text :
    listingLineText { operation := .reverseBitsLimited, operands := [.literal (.oneShiftedLeft 63), .literal (.decimal [1])] }
      { op := 3#2, a := 0x8000000000000000#64, b := 1#64 } 0x4000000000000000#64 =
    "reverse_bits_limited(1 << 63, 1)  ; cmd = 0x380000000000000000000000000000001  ; y = 0x4000000000000000" := by
  decide

/-! ### Datapaths: the worked traces -/

theorem test_tree_first_stage :
    treeStage 0 0x0123456789ABCDEF#64 = 0x02138A9B4657CEDF#64 := by decide

theorem test_clz_counter_of_0x400 : clzCounter 0x400#64 = 53 := by decide

theorem test_one_hot_encoder_is_wrong_on_6 : oneHotEncoder 6#64 = 3#6 ∧ priorityEncoder 6#64 = 2#6 := by decide

theorem test_datapath_limited_16_11 :
    unitDatapath clzIndex { op := 3#2, a := 16#64, b := 11#64 } = 13#64 := by decide

/-! ### Witnesses: for each obligation with hypotheses, a state and operands that meet all of them -/

/-- The command of the source's scenario `reverse_bits_limited(8, 3)`. -/
def sample : Command := { op := 3#2, a := 8#64, b := 3#64 }

/-- A command that touches an open parameter, `log2_pow2(0)`. -/
def openSample : Command := { op := 2#2, a := 0#64, b := 0#64 }

/-- The state after a step from `waiting`. -/
def stepped (c : Command) (rest : List Command) : State :=
  hostSample (waiting (c :: rest)) (driveY (unitFunction Config.thisUnit c) (hostIssue (waiting (c :: rest))))

theorem witness_CommandWordLayout_boundaries :
    (wordOfCommand { op := 2#2, a := 1#64, b := 0x8000000000000000#64 }).getLsbD 63 = true ∧
    (wordOfCommand { op := 2#2, a := 1#64, b := 0x8000000000000000#64 }).getLsbD 64 = true ∧
    (wordOfCommand { op := 2#2, a := 1#64, b := 0x8000000000000000#64 }).getLsbD 127 = false ∧
    (wordOfCommand { op := 2#2, a := 1#64, b := 0x8000000000000000#64 }).getLsbD 128 = false ∧
    (wordOfCommand { op := 2#2, a := 1#64, b := 0x8000000000000000#64 }).getLsbD 129 = true := by decide

theorem witness_StepRunsTheDecodedCommand :
    (waiting [sample]).pending = sample :: [] ∧
    ∃ t, exec (decode sample)
      { waiting [sample] with op := sample.op, a := sample.a, b := sample.b, pending := [] } = .next t ∧ t.y = 6#64 :=
  ⟨rfl, _, rfl, by decide⟩

theorem witness_StepWithNothingPendingHoldsTheInputs :
    State.reset.pending = [] ∧ ∃ t, exec (decode State.reset.command) State.reset = .next t ∧ t.y = 1#64 :=
  ⟨rfl, _, rfl, by decide⟩

theorem witness_Log2Pow2Result_boundaries :
    1 ≤ (1#64).toNat ∧ 1 ≤ (0xFFFFFFFFFFFFFFFF#64).toNat ∧ outputOf (exec (.log2Pow2 1#64 0#64) State.reset) = some 0#64 ∧
    outputOf (exec (.log2Pow2 0xFFFFFFFFFFFFFFFF#64 0#64) State.reset) = some 63#64 := by decide

theorem witness_ReverseBitsLimitedResult_boundaries :
    2 ^ 0 ≤ (1#64).toNat ∧ (1#64).toNat < 2 ^ (0 + 1) ∧
    2 ^ 63 ≤ (0xFFFFFFFFFFFFFFFF#64).toNat ∧ (0xFFFFFFFFFFFFFFFF#64).toNat < 2 ^ (63 + 1) ∧
    outputOf (exec (.reverseBitsLimited 0xFFFFFFFFFFFFFFFF#64 1#64) State.reset) = some 0x4000000000000000#64 := by
  decide

theorem witness_OneOperandOperationsIgnorePortB :
    ((2#2 : OpSelect) = 0#2 ∨ (2#2 : OpSelect) = 1#2 ∨ (2#2 : OpSelect) = 2#2) ∧
    outputOf (exec (decode { op := 2#2, a := 8#64, b := 5#64 }) State.reset) = some 3#64 := by decide

theorem witness_ResultRanges_boundaries :
    1 ≤ (1#64).toNat ∧ unitFunction Config.thisUnit { op := 3#2, a := 1#64, b := 1#64 } = 0#64 ∧
    unitFunction Config.thisUnit { op := 3#2, a := 0xFFFFFFFFFFFFFFFF#64, b := 0xFFFFFFFFFFFFFFFF#64 } =
      0x7FFFFFFFFFFFFFFF#64 := by decide

theorem witness_StepAnswersTheUnitFunction :
    (waiting [sample, openSample]).pending = sample :: [openSample] := rfl

theorem witness_EveryStepKeepsTheOutputSettled :
    ((waiting [sample]).Settled ∧ ∀ r, (waiting [sample]).results.getLast? = some r → r = (waiting [sample]).y) ∧
    step (waiting [sample]) = .next (stepped sample []) :=
  ⟨⟨rfl, fun r h => by simp [waiting, State.reset] at h⟩, rfl⟩

theorem witness_RunIsTheListOfResults :
    ∃ t1 t2, (waiting [sample, openSample]).pending.Perm (waiting [openSample, sample]).pending ∧
      (waiting [sample, openSample]).results = [] ∧ (waiting [openSample, sample]).results = [] ∧
      core.run 2 (waiting [sample, openSample]) = .next t1 ∧ core.run 2 (waiting [openSample, sample]) = .next t2 ∧
      t1.results = [6#64, Config.log2OfZero] ∧ t2.results = [Config.log2OfZero, 6#64] :=
  ⟨_, _, List.Perm.swap _ _ _, rfl, rfl, rfl, rfl, rfl, rfl⟩

theorem witness_ResultDependsOnItsOwnCommandOnly :
    (waiting [sample]).pending = sample :: [] ∧ (stepped openSample [sample]).pending = sample :: [] ∧
    step (waiting [sample]) = .next (stepped sample []) ∧ ∃ t, step (stepped openSample [sample]) = .next t :=
  ⟨rfl, rfl, rfl, _, rfl⟩

theorem witness_HoldingTheInputsChangesNothing : State.reset.Settled ∧ State.reset.pending = [] := ⟨rfl, rfl⟩

theorem witness_ParametersMatterOnlyWhereOpen :
    domainClass sample ≠ .outsideOpen ∧ domainClass openSample = .outsideOpen ∧
    domainClass { op := 3#2, a := 0#64, b := 1#64 } = .outsideOpen ∧
    domainClass { op := 3#2, a := 1#64, b := 1#64 } ≠ .outsideOpen := by decide

theorem witness_ContractKeptResultsRestOnNoParameter :
    (waiting [sample]).ContractKept ∧ core.run 1 (waiting [sample]) = .next (stepped sample []) :=
  ⟨fun c h => by
    have e : c = sample := by simpa [waiting] using h
    rw [e]
    decide, rfl⟩

theorem witness_InDomainIsThePreconditions_boundaries :
    inDomain { op := 2#2, a := 0#64, b := 0#64 } = false ∧ inDomain { op := 2#2, a := 1#64, b := 0#64 } = true ∧
    inDomain { op := 3#2, a := 1#64, b := 0#64 } = true ∧ inDomain { op := 3#2, a := 1#64, b := 1#64 } = false ∧
    inDomain { op := 3#2, a := 0#64, b := 0#64 } = false ∧
    inDomain { op := 3#2, a := 0x8000000000000000#64, b := 0x7FFFFFFFFFFFFFFF#64 } = true ∧
    inDomain { op := 3#2, a := 0x8000000000000001#64, b := 0#64 } = false := by decide

theorem witness_DecrementWrapsOnlyAtZero : 1 ≤ (1#64).toNat ∧ (1#64 - 1#64).toNat = 0 := by decide

theorem witness_IsPowerOfTwoCharacterised_lowestBit :
    (12#64).getLsbD 2 = true ∧ (∀ i, i < 2 → (12#64).getLsbD i = false) ∧ 12#64 &&& (12#64 - 1#64) = 8#64 := by decide

theorem witness_Log2Laws :
    1 ≤ (1025#64).toNat ∧ (3#64).toNat < 2 ^ (log2Pow2 Config.thisUnit 1025#64).toNat ∧
    (1025#64).toNat ≤ (0x8000000000000000#64).toNat := by decide

theorem witness_ReverseBitsLimitedByParts :
    ∃ t1 t2 t3, 1 ≤ (1024#64).toNat ∧ exec (.log2Pow2 1024#64 0#64) State.reset = .next t1 ∧
      exec (.reverseBits 341#64 0#64) State.reset = .next t2 ∧
      exec (.reverseBitsLimited 1024#64 341#64) State.reset = .next t3 ∧
      t1.y = 10#64 ∧ t2.y = 0xAA80000000000000#64 ∧ t3.y = 682#64 :=
  ⟨_, _, _, by decide, rfl, rfl, rfl, by decide, by decide, by decide⟩

theorem witness_windows_0_and_63 :
    0 ≤ 63 ∧ (0#64).toNat < (1#64 <<< 0 : Word).toNat ∧ 63 ≤ 63 ∧
    (0x7FFFFFFFFFFFFFFF#64).toNat < (1#64 <<< 63 : Word).toNat ∧
    reverseBitsLimited Config.thisUnit (1#64 <<< 63) 0x7FFFFFFFFFFFFFFF#64 = 0x7FFFFFFFFFFFFFFF#64 ∧
    (reverseBitsLimited Config.thisUnit (1#64 <<< 1) 1#64).getLsbD 0 = true := by decide

/-- A function that meets the six invariants without being the unit's: it takes both reversals to be the identity. `z` is
what it answers to `log2_pow2(0)`. -/
def identityUnit (z : Word) (c : Command) : Word :=
  match operationOfSelect c.op with
  | .isPowerOfTwo => 1#64
  | .reverseBits => c.a
  | .log2Pow2 => if c.a = 0#64 then z else BitVec.ofNat 64 (highestSetBit c.a)
  | .reverseBitsLimited => c.b

theorem identityUnit_agrees_in_domain (c : Command) (h : inDomain c = true) : identityUnit 0#64 c = identityUnit 1#64 c := by
  simp only [identityUnit, inDomain] at *
  split at h <;> simp_all
  have hne := (one_le_toNat_iff c.a).mp h
  rw [if_neg hne, if_neg hne]

theorem witness_EveryImplementationMeetsTheSourceInvariants :
    (∀ c : Command, inDomain c = true → identityUnit 0#64 c = identityUnit 1#64 c) ∧
    MeetsSourceInvariants (identityUnit 0#64) := by
  have range : LimitedStaysInRange (identityUnit 0#64) := fun w v _ hv => hv
  have involution : LimitedIsInvolution (identityUnit 0#64) := fun w v _ _ => rfl
  refine ⟨identityUnit_agrees_in_domain, fun k b _ => rfl, fun x b b' => rfl, range, involution,
    limitedIsBijection_of_range_of_involution _ range involution, fun k b hk => ?_⟩
  show (if (1#64 <<< k : Word) = 0#64 then 0#64 else BitVec.ofNat 64 (highestSetBit (1#64 <<< k))) = BitVec.ofNat 64 k
  rw [if_neg (one_shiftLeft_ne_zero k hk), highestSetBit_one_shiftLeft k hk]

theorem witness_OutOfDomainResultIsTheStatedComputation :
    2 ^ 3 ≤ (12#64).toNat ∧ (12#64).toNat < 2 ^ (3 + 1) ∧ reverseBitsLimited Config.thisUnit 12#64 11#64 = 6#64 := by
  decide

theorem witness_ReversalTree_boundaries :
    (treeStage 5 1#64).getLsbD 32 = true ∧ (treeStage 0 1#64).getLsbD 1 = true ∧
    (treeStage 5 0x8000000000000000#64).getLsbD 31 = true := by decide

theorem witness_Log2Datapaths_boundaries :
    1 ≤ (1#64).toNat ∧ clz 1#64 = 63 ∧ clzCounter 1#64 = 63 ∧ priorityEncoder 1#64 = 0#6 ∧
    clz 0x8000000000000000#64 = 0 ∧ priorityEncoder 0x8000000000000000#64 = 63#6 := by decide

theorem witness_WellFormedLineIssuesItsCommand :
    Line.wf ([7#64].length + 1) { operation := .reverseBits, operands := [.result 1] } = true ∧
    Line.wf ([7#64].length + 1)
      { operation := .reverseBitsLimited, operands := [.literal (.decimal [1, 6]), .result 1] } = true ∧
    (Operand.literal (.oneShiftedLeft 63)).wf ([7#64].length + 1) = true ∧ 0 < [7#64].length := by decide

theorem witness_WellFormedListingsRunToTheirEnd :
    listingWf 1 [{ operation := .log2Pow2, operands := [.literal (.decimal [8])] }] = true := by decide

end Sys2Proof.Tests
end

section
/-! PROOFS. What a step does, case by case, and what a run over the host's list does: the rules the state statements are
assembled from. -/

namespace Sys2Proof.Machine

theorem decode_commandOf (i : Instr) : decode (commandOf i) = i := by
  cases i <;> rfl

theorem exec_decode (c : Command) (s : State) :
    exec (decode c) s = .next (driveY (unitFunction Config.thisUnit c) s) := by
  rw [exec_eq_driveY, commandOf_decode]

/-- A step with a command to issue: that command on the inputs, `F` of it on `y` and at the end of the results. -/
theorem step_of_cons (s : State) (c : Command) (rest : List Command) (h : s.pending = c :: rest) :
    step s = .next { op := c.op, a := c.a, b := c.b, y := unitFunction Config.thisUnit c, pending := rest,
                     results := s.results ++ [unitFunction Config.thisUnit c] } := by
  rw [step_eq, hostSample_of_cons _ _ c rest h, hostIssue_of_cons _ c rest h]
  rfl

theorem driveY_of_settled (s : State) (h : s.Settled) :
    driveY (unitFunction Config.thisUnit s.command) s = s := by
  have hy : unitFunction Config.thisUnit s.command = s.y := h.symm
  rw [hy]
  rfl

/-- Issuing a whole list of commands, one step each: `F` of each is appended to the results in order (R29). -/
theorem core_run_pending (cs : List Command) (s : State) (h : s.pending = cs) :
    ∃ t : State, core.run cs.length s = .next t ∧ t.pending = [] ∧
      t.results = s.results ++ cs.map (unitFunction Config.thisUnit) := by
  induction cs generalizing s with
  | nil => exact ⟨s, rfl, h, by simp⟩
  | cons c rest ih =>
    obtain ⟨s', hstep, hpending', hresults'⟩ : ∃ s', step s = .next s' ∧ s'.pending = rest ∧
        s'.results = s.results ++ [unitFunction Config.thisUnit c] := ⟨_, step_of_cons s c rest h, rfl, rfl⟩
    obtain ⟨t, hrun, hpending, hresults⟩ := ih s' hpending'
    exact ⟨t, (core_run_succ s s' rest.length hstep).trans hrun, hpending, by simp [hresults, hresults']⟩

/-- From no results, the results of a complete run are `F` of the commands issued. -/
theorem results_of_core_run_pending (s t : State) (h : s.results = [])
    (hrun : core.run s.pending.length s = .next t) :
    t.results = s.pending.map (unitFunction Config.thisUnit) := by
  obtain ⟨t', hrun', -, hresults⟩ := core_run_pending s.pending s rfl
  have same : t' = t := Host.Outcome.next.inj (hrun'.symm.trans hrun)
  rw [← same, hresults, h, List.nil_append]

end Sys2Proof.Machine
end

section
/-! PROOFS. A placed command word is the command in front of the host's list. -/

namespace Sys2Proof

theorem extractLsb'_eq_of_getLsbD_eq {k : Nat} (w : CommandWord) (lo : Nat) (x : BitVec k)
    (h : ∀ i, i < k → w.getLsbD (lo + i) = x.getLsbD i) : w.extractLsb' lo k = x := by
  apply BitVec.eq_of_getLsbD_eq
  intro i hi
  simp [hi, h i hi]

theorem commandOfWord_wordOfCommand (c : Command) : commandOfWord (wordOfCommand c) = c := by
  have hop : (wordOfCommand c).extractLsb' 128 2 = c.op :=
    extractLsb'_eq_of_getLsbD_eq _ 128 c.op fun i _ => by
      simp [getLsbD_wordOfCommand, show ¬ 128 + i < 64 by omega]
  have ha : (wordOfCommand c).extractLsb' 64 64 = c.a :=
    extractLsb'_eq_of_getLsbD_eq _ 64 c.a fun i hi => by
      simp [getLsbD_wordOfCommand, show 64 + i < 128 by omega]
  have hb : (wordOfCommand c).extractLsb' 0 64 = c.b :=
    extractLsb'_eq_of_getLsbD_eq _ 0 c.b fun i hi => by
      simp [getLsbD_wordOfCommand, hi]
  rw [commandOfWord, hop, ha, hb]

/-- 17 whole bytes hold a command word, so reading one as a 136-bit number loses nothing. -/
theorem ofNat_toNat_mod_two_pow_136 (w : CommandWord) : BitVec.ofNat 130 (w.toNat % 2 ^ 136) = w := by
  rw [Nat.mod_eq_of_lt (by have := w.isLt; omega), BitVec.ofNat_toNat, BitVec.setWidth_eq]

theorem Machine.withFetchWord_encode (s : Machine.State) (i : Instr) :
    s.withFetchWord 136 (encode i).toNat = Machine.hostEnqueueFront (commandOf i) s := by
  rw [Machine.State.withFetchWord, ofNat_toNat_mod_two_pow_136, encode, commandOfWord_wordOfCommand]

end Sys2Proof
end

section
/-! PROOFS. The statements about the state (spec/10_state.md). -/

namespace Sys2Proof.Machine

/-- Settles O19, by the two cases of a step: with nothing to issue a settled state is kept as it is, and otherwise `y` and
the result just sampled are both `F` of the command issued. -/
theorem everyStepKeepsTheOutputSettled : Obligations.EveryStepKeepsTheOutputSettled := by
  rintro s t ⟨hsettled, hlast⟩ hstep
  obtain ⟨-, ht⟩ | ⟨c, rest, -, ht⟩ := step_cases s t hstep
  case inl =>
    rw [ht, driveY_of_settled s hsettled]
    exact ⟨hsettled, hlast⟩
  case inr =>
    subst ht
    refine ⟨rfl, fun r hr => ?_⟩
    rw [List.getLast?_concat] at hr
    exact (Option.some.inj hr).symm

/-- Settles O21, from the induction over the host's list: the results are `F` mapped over the commands, and a map carries
a permutation over. -/
theorem runIsTheListOfResults : Obligations.RunIsTheListOfResults := by
  refine ⟨fun s => core_run_pending s.pending s rfl, fun s1 s2 t1 t2 perm empty1 empty2 run1 run2 => ?_⟩
  rw [results_of_core_run_pending s1 t1 empty1 run1, results_of_core_run_pending s2 t2 empty2 run2,
    ← List.map_prod_left_eq_zip, ← List.map_prod_left_eq_zip]
  exact ⟨perm.map _, perm.map _⟩

/-- Settles O22: what a step puts on `y` and samples is `F` of the command it issues, in which the state does not occur. -/
theorem resultDependsOnItsOwnCommandOnly : Obligations.ResultDependsOnItsOwnCommandOnly := by
  intro s1 s2 t1 t2 c rest1 rest2 h1 h2 hstep1 hstep2
  have e1 := Host.Outcome.next.inj ((step_of_cons s1 c rest1 h1).symm.trans hstep1)
  have e2 := Host.Outcome.next.inj ((step_of_cons s2 c rest2 h2).symm.trans hstep2)
  subst e1 e2
  exact ⟨rfl, rfl⟩

/-- Settles O8: both `exec` and `step` put `F` of the decoded command on `y`. -/
theorem stepRunsTheDecodedCommand : Obligations.StepRunsTheDecodedCommand := by
  intro s t c rest hpending hexec
  have ht := Host.Outcome.next.inj ((exec_decode c _).symm.trans hexec)
  rw [step_of_cons s c rest hpending, ← ht]
  rfl

/-- Settles O10, from O8: the placed word is the instruction's command in front of the list. -/
theorem placedWordIsRunByTheNextStep : Obligations.PlacedWordIsRunByTheNextStep := by
  intro s i
  refine ⟨_, exec_eq_driveY i _, ?_⟩
  rw [withFetchWord_encode]
  apply stepRunsTheDecodedCommand _ _ (commandOf i) s.pending (hostEnqueueFront_pending _ s)
  rw [decode_commandOf, exec_eq_driveY]
  rfl

/-- Settles O16: an instruction drives `y` and does nothing else. -/
theorem instructionsChangeOnlyTheOutput : Obligations.InstructionsChangeOnlyTheOutput := by
  intro i s
  exact ⟨_, exec_eq_driveY i s, driveY_op _ s, driveY_a _ s, driveY_b _ s, driveY_pending _ s, driveY_results _ s⟩

/-- `F` of a one-operand operation, for every unit, does not read port `b` (R28, R54). -/
theorem unitFunction_congr_b (p : Config.Params) (op : OpSelect) (a b1 b2 : Word)
    (h : op = 0#2 ∨ op = 1#2 ∨ op = 2#2) :
    unitFunction p { op := op, a := a, b := b1 } = unitFunction p { op := op, a := a, b := b2 } := by
  obtain rfl | rfl | rfl := h <;> rfl

/-- Settles O17: `exec` of a decoded command is `F` of it on `y`, so it ignores port `b` where `F` does. -/
theorem oneOperandOperationsIgnorePortB : Obligations.OneOperandOperationsIgnorePortB := by
  intro p op a b1 b2 h
  refine ⟨unitFunction_congr_b p op a b1 b2 h, fun s => ?_⟩
  rw [exec_decode, exec_decode, unitFunction_congr_b Config.thisUnit op a b1 b2 h]

end Sys2Proof.Machine
end

section
/-! PROOFS. With nothing left to issue a settled state is a fixed point of the step (spec/20_memory.md R38). -/

namespace Sys2Proof.Machine

/-- A step with no command to issue: the unit drives `y` for the inputs the host holds, and nothing is sampled. -/
theorem step_of_nil (s : State) (h : s.pending = []) :
    step s = .next (driveY (unitFunction Config.thisUnit s.command) s) := by
  rw [step_eq, hostSample_of_nil _ _ h, hostIssue_of_nil _ h]

theorem step_of_settled_of_nil (s : State) (hsettled : s.Settled) (h : s.pending = []) : step s = .next s := by
  rw [step_of_nil s h, driveY_of_settled s hsettled]

/-- Any number of steps from a fixed point of the step stays there. -/
theorem core_run_of_step_eq_self (s : State) (k : Nat) (h : step s = .next s) : core.run k s = .next s := by
  induction k with
  | zero => rfl
  | succ k ih => exact (core_run_succ s s k h).trans ih

/-- Settles O23: a settled state with nothing pending is a fixed point of the step, hence of every run. -/
theorem holdingTheInputsChangesNothing : Obligations.HoldingTheInputsChangesNothing := by
  intro s k hsettled hpending
  exact core_run_of_step_eq_self s k (step_of_settled_of_nil s hsettled hpending)

end Sys2Proof.Machine
end

section
/-! PROOFS. Decoder and encoder are each other's inverse, and the decoder refuses by bits (spec/30_encoding.md R50 to
R56). -/

namespace Sys2Proof

@[simp] theorem decodeWord_encode (i : Instr) : decodeWord (encode i) = i := by
  rw [decodeWord, encode, commandOfWord_wordOfCommand, Machine.decode_commandOf]

theorem wordOfCommand_commandOfWord (w : CommandWord) : wordOfCommand (commandOfWord w) = w := by
  apply BitVec.eq_of_getLsbD_eq
  intro i hi
  rw [getLsbD_wordOfCommand]
  simp only [commandOfWord, BitVec.getLsbD_extractLsb']
  split_ifs with hb ha
  · simp [hb]
  · simp [show i - 64 < 64 by omega, show 64 + (i - 64) = i by omega]
  · simp [show i - 128 < 2 by omega, show 128 + (i - 128) = i by omega]

@[simp] theorem encode_decodeWord (w : CommandWord) : encode (decodeWord w) = w := by
  rw [encode, decodeWord, Machine.commandOf_decode, wordOfCommand_commandOfWord]

/-- Read as 17 whole bytes, a command word is never refused (R56). -/
theorem decodeTableWord_toNat (w : CommandWord) : decodeTableWord 136 w.toNat = some (decodeWord w) := by
  rw [decodeTableWord_of_lt _ _ (lt_of_le_of_lt (Nat.mod_le _ _) w.isLt), ofNat_toNat_mod_two_pow_136]

theorem decodeTableWord_eq_none_iff (nbits w : Nat) :
    decodeTableWord nbits w = none ↔ 2 ^ 130 ≤ w % 2 ^ nbits := by
  by_cases h : w % 2 ^ nbits < 2 ^ 130
  · exact iff_of_false (by simp [decodeTableWord_of_lt nbits w h]) (not_le.mpr h)
  · exact iff_of_true (decodeTableWord_of_not_lt nbits w h) (not_lt.mp h)

theorem two_pow_le_iff_exists_testBit (k x : Nat) : 2 ^ k ≤ x ↔ ∃ i, k ≤ i ∧ x.testBit i = true := by
  constructor
  · exact Nat.exists_ge_and_testBit_of_ge_two_pow
  · rintro ⟨i, hi, hbit⟩
    exact (Nat.pow_le_pow_right Nat.two_pos hi).trans (Nat.ge_two_pow_of_testBit hbit)

end Sys2Proof
end

section
/-! PROOFS. A row of the opcode table selects by the two bits of `op` (spec/30_encoding.md R52). -/

namespace Sys2Proof

theorem operation_decode (c : Command) : (decode c).operation = operationOfSelect c.op := by
  rw [decode]
  cases operationOfSelect c.op <;> rfl

theorem operationOfSelect_eq_iff (op : OpSelect) (o : Operation) :
    operationOfSelect op = o ↔ op = selectOfOperation o := by
  constructor
  · rintro rfl
    exact (Machine.selectOfOperation_operationOfSelect op).symm
  · rintro rfl
    exact Machine.operationOfSelect_selectOfOperation o

theorem wordOfCommand_and (c d : Command) :
    wordOfCommand c &&& wordOfCommand d =
      wordOfCommand { op := c.op &&& d.op, a := c.a &&& d.a, b := c.b &&& d.b } := by
  apply BitVec.eq_of_getLsbD_eq
  intro i _
  simp only [BitVec.getLsbD_and, getLsbD_wordOfCommand]
  split_ifs <;> rfl

theorem wordOfCommand_injective : Function.Injective wordOfCommand :=
  Function.LeftInverse.injective commandOfWord_wordOfCommand

/-- The word of a select code with zeros on both operand ports: the `mask` (of `op` = 3) and the `match` column of the
opcode table are such words. -/
def wordOfSelect (op : OpSelect) : CommandWord := wordOfCommand { op := op, a := 0#64, b := 0#64 }

theorem wordOfSelect_injective : Function.Injective wordOfSelect := by
  intro op op' h
  exact congrArg Command.op (wordOfCommand_injective h)

theorem and_wordOfSelect_three (w : CommandWord) : w &&& wordOfSelect 3#2 = wordOfSelect (commandOfWord w).op := by
  have ones : (commandOfWord w).op &&& 3#2 = (commandOfWord w).op := BitVec.and_allOnes
  conv_lhs => rw [← wordOfCommand_commandOfWord w]
  simp [wordOfSelect, wordOfCommand_and, ones]

/-- Mask and match of the row of operation `o` admit exactly the words that decode to `o`. -/
theorem operation_decodeWord_eq_iff (w : CommandWord) (o : Operation) :
    (decodeWord w).operation = o ↔ w &&& wordOfSelect 3#2 = wordOfSelect (selectOfOperation o) := by
  rw [decodeWord, operation_decode, operationOfSelect_eq_iff, and_wordOfSelect_three, wordOfSelect_injective.eq_iff]

end Sys2Proof
end

section
/-! PROOFS. The hexadecimal digits of a number, split at a digit and read back (spec/30_encoding.md R50, R58). -/

namespace Sys2Proof

@[simp] theorem length_hexDigits (w k : Nat) : (hexDigits w k).length = k := by
  induction k with
  | zero => rfl
  | succ k ih => simp [hexDigits, ih]

/-- The lowest `j + k` digits are the `j` digits above digit `k`, then the lowest `k`. -/
theorem hexDigits_add (w j k : Nat) : hexDigits w (j + k) = hexDigits (w / 16 ^ k) j ++ hexDigits w k := by
  induction j with
  | zero => simp [hexDigits]
  | succ j ih =>
    rw [Nat.add_right_comm, hexDigits, hexDigits, ih, Nat.div_div_eq_div_mul, ← pow_add, Nat.add_comm k j]
    rfl

/-- Reading the lowest `k` digits of `w` after digits of value `acc`. -/
theorem foldl_hexDigits (w k acc : Nat) :
    ((hexDigits w k).map Fin.val).foldl (fun acc d => acc * 16 + d) acc = acc * 16 ^ k + w % 16 ^ k := by
  induction k generalizing acc with
  | zero => simp [hexDigits, Nat.mod_one]
  | succ k ih =>
    rw [hexDigits, List.map_cons, List.foldl_cons, ih, Nat.mod_pow_succ, Fin.val_ofNat]
    ring

theorem value_hexadecimal_hexDigits (w k : Nat) : (Literal.hexadecimal (hexDigits w k)).value = w % 16 ^ k := by
  rw [Literal.value, digitsValue, foldl_hexDigits, Nat.zero_mul, Nat.zero_add]

/-- The 33 digits of a command word: one, 16 and 16. -/
theorem hexDigitsOfWord_eq (w : CommandWord) :
    hexDigitsOfWord w =
      hexDigits (w.toNat / 16 ^ 16 / 16 ^ 16) 1 ++ hexDigits (w.toNat / 16 ^ 16) 16 ++ hexDigits w.toNat 16 := by
  rw [hexDigitsOfWord, hexDigits_add w.toNat 17 16, hexDigits_add (w.toNat / 16 ^ 16) 1 16]

end Sys2Proof
end

section
/-! PROOFS. The statements about command words (spec/30_encoding.md sections 1 to 4). -/

namespace Sys2Proof

/-- Settles O1: `decode` inverts `commandOf` and `commandOfWord` inverts `wordOfCommand`; 136 bits lose nothing. -/
theorem decodeOfEncodeIsTheInstruction : Obligations.DecodeOfEncodeIsTheInstruction := by
  intro i
  refine ⟨decodeWord_encode i, ?_⟩
  rw [decodeTableWord_toNat, decodeWord_encode]

/-- Settles O2: the instruction is the one decoded, which encodes back to the word; every instruction answers. -/
theorem everyCommandWordIsLegal : Obligations.EveryCommandWordIsLegal := by
  intro w
  exact ⟨decodeWord w, decodeTableWord_toNat w, encode_decodeWord w, fun s => ⟨_, Machine.exec_eq_driveY _ s⟩⟩

/-- Settles O3: the bits by the word's layout, the digits by cutting the number at the digits 16 and 32. -/
theorem commandWordLayout : Obligations.CommandWordLayout := by
  intro c
  have number := toNat_wordOfCommand c
  have hop := c.op.isLt
  have ha := c.a.isLt
  have hb := c.b.isLt
  refine ⟨fun i hi => ?_, fun i hi => ?_, fun i hi => ?_, commandOfWord_wordOfCommand c, _, _, _,
    hexDigitsOfWord_eq _, length_hexDigits _ _, length_hexDigits _ _, length_hexDigits _ _, ?_, ?_, ?_⟩
  · simp [getLsbD_wordOfCommand, hi]
  · simp [getLsbD_wordOfCommand, show 64 + i < 128 by omega]
  · simp [getLsbD_wordOfCommand, show ¬ 128 + i < 64 by omega]
  all_goals rw [value_hexadecimal_hexDigits]; omega

/-- Settles O5: each row's mask and match are words of a select code with zero operands. -/
theorem opcodeTableRowsSelectTheirWords : Obligations.OpcodeTableRowsSelectTheirWords := by
  intro w
  exact ⟨operation_decodeWord_eq_iff w .isPowerOfTwo, operation_decodeWord_eq_iff w .reverseBits,
    operation_decodeWord_eq_iff w .log2Pow2, operation_decodeWord_eq_iff w .reverseBitsLimited⟩

/-- Settles O7: what is left after cutting to `nbits` bits is `2^130` or more exactly when a bit at 130 or above is
set in it. -/
theorem decoderRefusesExactlyBitsAbove129 : Obligations.DecoderRefusesExactlyBitsAbove129 := by
  intro nbits w
  rw [decodeTableWord_eq_none_iff, two_pow_le_iff_exists_testBit]
  simp only [Nat.testBit_mod_two_pow, Bool.and_eq_true, decide_eq_true_eq]

/-- Settles O4, by computing the select code's case. -/
theorem selectCodesDecode : Obligations.SelectCodesDecode := by
  intro a b
  exact ⟨rfl, rfl, rfl, rfl⟩

end Sys2Proof
end

section
/-! PROOFS. The unit's function and what a step answers (spec/30_encoding.md R53). -/

namespace Sys2Proof.Machine

/-- Settles O18: `F` by its four cases, the test `a = 0` made first where a parameter is open; a step with a command
waiting puts `F` of it on `y`. -/
theorem stepAnswersTheUnitFunction : Obligations.StepAnswersTheUnitFunction := by
  refine ⟨fun p a b => ⟨rfl, rfl, ?log2, ?limited⟩, fun s c rest h => ⟨_, step_of_cons s c rest h, rfl, rfl, rfl⟩⟩
  case log2 =>
    show log2Pow2 p a = _
    split_ifs with h
    · rw [h, log2Pow2_zero]
    · rfl
  case limited =>
    show reverseBitsLimited p a b = _
    split_ifs with h
    · rw [h, reverseBitsLimited_zero]
    · rfl

end Sys2Proof.Machine
end

section
/-! PROOFS. The host's guard computes the domain of `reverse_bits_limited` (spec/30_encoding.md R60, 60_exceptions.md
R141). -/

namespace Sys2Proof.Machine

theorem isTwoToSome_iff_toNat (n : Word) : isTwoToSome n = true ↔ ∃ w, w ≤ 63 ∧ n.toNat = 2 ^ w := by
  rw [isTwoToSome_iff]
  refine exists_congr fun w => and_congr_right fun hw => ?_
  rw [← BitVec.toNat_inj, toNat_one_shiftLeft w hw]

theorem toNat_sub_one (n : Word) (h : n ≠ 0#64) : (n - 1#64).toNat = n.toNat - 1 :=
  BitVec.toNat_sub_of_le (BitVec.le_def.mpr ((one_le_toNat_iff n).mpr h))

/-- For `n >= 1` the test is that `n` is `2^w`; a word leaves `w` no more than 63. -/
theorem isPowerOfTwo_iff_toNat (n : Word) (h : n ≠ 0#64) :
    isPowerOfTwo n = true ↔ ∃ w, w ≤ 63 ∧ n.toNat = 2 ^ w := by
  have hpos := (one_le_toNat_iff n).mpr h
  rw [isPowerOfTwo_eq_true_iff, ← BitVec.toNat_inj, BitVec.toNat_and, toNat_sub_one n h]
  refine (Nat.and_sub_one_eq_zero_iff_isPowerOfTwo (by omega)).trans (exists_congr fun w => ?_)
  refine ⟨fun hw => ⟨?_, hw⟩, And.right⟩
  have hlt : 2 ^ w < 2 ^ 64 := hw ▸ n.isLt
  exact Nat.le_of_lt_succ ((Nat.pow_lt_pow_iff_right (by omega)).mp hlt)

theorem isPositivePowerOfTwo_eq_isTwoToSome (n : Word) : isPositivePowerOfTwo n = isTwoToSome n := by
  rw [Bool.eq_iff_iff, isPositivePowerOfTwo_iff, isTwoToSome_iff_toNat]
  by_cases h : n = 0#64
  · simp [h, (Nat.two_pow_pos _).ne]
  · simp [h, isPowerOfTwo_iff_toNat n h]

/-- Settles O26: `in_domain` by its four cases; for `op` 3 both it and the guard test that `a` is `2^w` and `b < a`. -/
theorem inDomainIsThePreconditions : Obligations.InDomainIsThePreconditions := by
  intro a b
  have limited : inDomain { op := 3#2, a := a, b := b } = (isTwoToSome a && decide (b.toNat < a.toNat)) := rfl
  refine ⟨rfl, rfl, decide_eq_true_iff, ?_, ?_, ?_⟩
  · rw [limited, Bool.and_eq_true, isTwoToSome_iff_toNat, decide_eq_true_iff]
  · rw [limited, hostGuard, isPositivePowerOfTwo_eq_isTwoToSome]
  · rw [hostGuard, Bool.and_eq_true, isPositivePowerOfTwo_iff, decide_eq_true_iff, and_assoc]

end Sys2Proof.Machine
end

section
/-! PROOFS. A well-formed line issues a command, and a well-formed listing runs (spec/30_encoding.md R58). -/

namespace Sys2Proof.Machine

theorem operation_arity_eq_one_or_two (o : Operation) : o.arity = 1 ∨ o.arity = 2 := by
  cases o <;> decide

theorem line_wf_iff (line : Nat) (l : Line) :
    l.wf line = true ↔ l.operands.length = l.operation.arity ∧ ∀ o ∈ l.operands, o.wf line = true := by
  simp [Line.wf]

theorem commandOfLine_of_arity_one (ys : List Word) (o : Operation) (n : Operand) (a : Word) (harity : o.arity = 1)
    (hn : operandWord ys n = some a) :
    commandOfLine ys { operation := o, operands := [n] } =
      some { op := selectOfOperation o, a := a, b := 0#64 } := by
  cases o with
  | isPowerOfTwo | reverseBits | log2Pow2 => simp [commandOfLine, hn]
  | reverseBitsLimited => contradiction

theorem commandOfLine_of_arity_two (ys : List Word) (o : Operation) (n v : Operand) (a b : Word)
    (harity : o.arity = 2) (hn : operandWord ys n = some a) (hv : operandWord ys v = some b) :
    commandOfLine ys { operation := o, operands := [n, v] } = some { op := selectOfOperation o, a := a, b := b } := by
  cases o with
  | isPowerOfTwo | reverseBits | log2Pow2 => contradiction
  | reverseBitsLimited => simp [commandOfLine, hn, hv]

/-- The command of a well-formed line: its own select code, the words of its operands on the ports, and 0 on port `b`
for a one-operand mnemonic. -/
theorem commandOfLine_of_wf (ys : List Word) (l : Line) (h : l.wf (ys.length + 1) = true) :
    ∃ c, commandOfLine ys l = some c ∧ c.op = selectOfOperation l.operation ∧
      (l.operation.arity = 1 → ∃ n, l.operands = [n] ∧ operandWord ys n = some c.a ∧ c.b = 0#64) ∧
      (l.operation.arity = 2 → ∃ n v, l.operands = [n, v] ∧ operandWord ys n = some c.a ∧
        operandWord ys v = some c.b) := by
  obtain ⟨o, operands⟩ := l
  obtain ⟨hlen, hwf⟩ := (line_wf_iff _ _).mp h
  have words : ∀ n ∈ operands, ∃ x, operandWord ys n = some x := fun n hn => operandWord_of_wf ys n (hwf n hn)
  obtain harity | harity := operation_arity_eq_one_or_two o
  · obtain ⟨n, rfl⟩ := List.length_eq_one_iff.mp (hlen.trans harity)
    obtain ⟨a, hn⟩ := words n (by simp)
    exact ⟨_, commandOfLine_of_arity_one ys o n a harity hn, rfl, fun _ => ⟨n, rfl, hn, rfl⟩,
      fun h2 => absurd (harity.symm.trans h2) (by decide)⟩
  · obtain ⟨n, v, rfl⟩ := List.length_eq_two.mp (hlen.trans harity)
    obtain ⟨a, hn⟩ := words n (by simp)
    obtain ⟨b, hv⟩ := words v (by simp)
    exact ⟨_, commandOfLine_of_arity_two ys o n v a b harity hn hv, rfl,
      fun h1 => absurd (h1.symm.trans harity) (by decide), fun _ => ⟨n, v, rfl, hn, hv⟩⟩

/-- A literal in range stands for its value: no bit is lost in the word. -/
theorem operandWord_literal_of_wf (ys : List Word) (line : Nat) (l : Literal)
    (h : (Operand.literal l).wf line = true) : ∃ x, operandWord ys (.literal l) = some x ∧ x.toNat = l.value := by
  have hwf : (l.spelled && l.inRange) = true := h
  have hlt : l.value < 2 ^ 64 := of_decide_eq_true (Bool.and_eq_true_iff.mp hwf).2
  exact ⟨BitVec.ofNat 64 l.value, if_pos hwf, by rw [BitVec.toNat_ofNat, Nat.mod_eq_of_lt hlt]⟩

/-- Settles O47: by the arity of the mnemonic, the literals by their range, `y<k>` by its place in the results. -/
theorem wellFormedLineIssuesItsCommand : Obligations.WellFormedLineIssuesItsCommand := by
  refine ⟨fun ys l h => ?_, fun ys l h => operandWord_literal_of_wf ys _ l h,
    fun ys k h => List.getElem?_eq_getElem h⟩
  obtain ⟨c, hc, hop, one, two⟩ := commandOfLine_of_wf ys l h
  exact ⟨c, hc, (operationOfSelect_eq_iff c.op l.operation).mpr hop, one, two⟩

/-- The first line of a listing: its command is issued in front of the host's list and leaves the list as it was. -/
theorem runListing_cons (ys : List Word) (l : Line) (rest : List Line) (s : State) (c : Command)
    (h : commandOfLine ys l = some c) :
    runListing ys (l :: rest) s =
      runListing (ys ++ [unitFunction Config.thisUnit c]) rest
        { op := c.op, a := c.a, b := c.b, y := unitFunction Config.thisUnit c, pending := s.pending,
          results := s.results ++ [unitFunction Config.thisUnit c] } := by
  simp only [runListing, h, step_of_cons _ c s.pending (hostEnqueueFront_pending c s), hostEnqueueFront_results]

/-- From the results `ys` of the lines before, the rest of a well-formed listing adds one result a line. -/
theorem runListing_of_wf (lines : List Line) (ys : List Word) (s : State)
    (h : listingWf (ys.length + 1) lines = true) :
    ∃ (zs : List Word) (t : State), runListing ys lines s = some (ys ++ zs, t) ∧ zs.length = lines.length ∧
      t.results = s.results ++ zs ∧ t.pending = s.pending := by
  induction lines generalizing ys s with
  | nil => exact ⟨[], s, by simp [runListing], rfl, by simp, rfl⟩
  | cons l rest ih =>
    obtain ⟨hline, hrest⟩ := Bool.and_eq_true_iff.mp h
    obtain ⟨c, hc, -⟩ := commandOfLine_of_wf ys l hline
    obtain ⟨zs, t, hrun, hlen, hresults, hpending⟩ := ih (ys ++ [unitFunction Config.thisUnit c])
      { op := c.op, a := c.a, b := c.b, y := unitFunction Config.thisUnit c, pending := s.pending,
        results := s.results ++ [unitFunction Config.thisUnit c] } (by simpa using hrest)
    refine ⟨unitFunction Config.thisUnit c :: zs, t, ?_, by simp [hlen], by simp [hresults], hpending⟩
    rw [runListing_cons ys l rest s c hc, hrun, List.append_assoc, List.singleton_append]

/-- Settles O48, from the induction over the lines at no results. -/
theorem wellFormedListingsRunToTheirEnd : Obligations.WellFormedListingsRunToTheirEnd := by
  intro lines s h
  exact runListing_of_wf lines [] s h

end Sys2Proof.Machine
end

section
/-! PROOFS. `n & (n - 1)` clears the lowest set bit of `n` (spec/40_is_power_of_two.md R74). -/

namespace Sys2Proof.Machine

/-- With `j` its lowest set bit, `n` is `2^j` times an odd number. -/
theorem toNat_eq_of_lowestSetBit (n : Word) (j : Nat) (hj : n.getLsbD j = true)
    (hbelow : ∀ i, i < j → n.getLsbD i = false) : n.toNat = 2 ^ (j + 1) * (n.toNat / 2 ^ (j + 1)) + 2 ^ j := by
  have low : n.toNat % 2 ^ (j + 1) = 2 ^ j := by
    apply Nat.eq_of_testBit_eq
    intro i
    rw [Nat.testBit_mod_two_pow, Nat.testBit_two_pow, BitVec.testBit_toNat]
    obtain h | rfl | h := Nat.lt_trichotomy i j
    · simp [hbelow i h, h.ne']
    · simp [hj]
    · simp [show ¬ i < j + 1 by omega, h.ne]
  have := Nat.div_add_mod n.toNat (2 ^ (j + 1))
  omega

/-- The borrow of `n - 1` stops at the lowest set bit `j`: ones below it, a zero there, the bits of `n` above. -/
theorem getLsbD_sub_one (n : Word) (j : Nat) (hj : n.getLsbD j = true)
    (hbelow : ∀ i, i < j → n.getLsbD i = false) (i : Nat) :
    (n - 1#64).getLsbD i = if i < j then true else n.getLsbD i && decide (i ≠ j) := by
  have hn : n ≠ 0#64 := by
    rintro rfl
    simp at hj
  have odd := toNat_eq_of_lowestSetBit n j hj hbelow
  have hpos := Nat.two_pow_pos j
  have hpow : 2 ^ j < 2 ^ (j + 1) := Nat.pow_lt_pow_succ (by omega)
  have pred : (n - 1#64).toNat = 2 ^ (j + 1) * (n.toNat / 2 ^ (j + 1)) + (2 ^ j - 1) := by
    rw [toNat_sub_one n hn]
    omega
  rw [← BitVec.testBit_toNat, ← BitVec.testBit_toNat, pred, Nat.testBit_two_pow_mul_add _ (by omega),
    Nat.testBit_two_pow_sub_one]
  obtain h | rfl | h := Nat.lt_trichotomy i j
  · simp [h, show i < j + 1 by omega]
  · simp
  · conv_rhs => rw [odd, Nat.testBit_two_pow_mul_add _ hpow]
    simp [show ¬ i < j + 1 by omega, show ¬ i < j by omega, h.ne']

theorem getLsbD_and_sub_one (n : Word) (j : Nat) (hj : n.getLsbD j = true)
    (hbelow : ∀ i, i < j → n.getLsbD i = false) (i : Nat) :
    (n &&& (n - 1#64)).getLsbD i = (n.getLsbD i && decide (i ≠ j)) := by
  rw [BitVec.getLsbD_and, getLsbD_sub_one n j hj hbelow]
  split_ifs with h
  · simp [hbelow i h]
  · rw [← Bool.and_assoc, Bool.and_self]

end Sys2Proof.Machine
end

section
/-! PROOFS. The words on which `is_power_of_two` is true: by value, by number of set bits, and listed
(spec/40_is_power_of_two.md R70, R71, R74). -/

namespace Sys2Proof.Machine

theorem isPowerOfTwo_zero : isPowerOfTwo 0#64 = true := by
  rw [isPowerOfTwo_eq_true_iff, BitVec.zero_and]

theorem isPowerOfTwo_iff (n : Word) : isPowerOfTwo n = true ↔ n = 0#64 ∨ ∃ k, k ≤ 63 ∧ n = 1#64 <<< k := by
  by_cases h : n = 0#64
  · simp [h, isPowerOfTwo_zero]
  · have positive := isPositivePowerOfTwo_iff n
    rw [isPositivePowerOfTwo_eq_isTwoToSome, isTwoToSome_iff] at positive
    simp [h, positive]

theorem popcountBelow_eq_count (x : Word) (k : Nat) : popcountBelow x k = Nat.count (fun i => x.getLsbD i = true) k := by
  induction k with
  | zero => rfl
  | succ k ih => rw [popcountBelow, Nat.count_succ, ih]

theorem popcount_le_one_iff (x : Word) :
    popcount x ≤ 1 ↔ ∀ i j, x.getLsbD i = true → x.getLsbD j = true → i = j := by
  have inWord : ∀ {i}, x.getLsbD i = true → i < 64 := BitVec.lt_of_getLsbD
  rw [popcount, popcountBelow_eq_count, Nat.count_eq_card_filter_range, Finset.card_le_one]
  simp only [Finset.mem_filter, Finset.mem_range]
  exact ⟨fun h i j hi hj => h i ⟨inWord hi, hi⟩ j ⟨inWord hj, hj⟩, fun h i hi j hj => h i j hi.2 hj.2⟩

/-- A word with one set bit is that bit's power of two. -/
theorem eq_one_shiftLeft (n : Word) (k : Nat) (hk : k ≤ 63) (h : ∀ i, n.getLsbD i = true ↔ i = k) :
    n = 1#64 <<< k := by
  apply word_ext
  intro i _
  rw [getLsbD_one_shiftLeft k i hk, Bool.eq_iff_iff, h, decide_eq_true_iff]

theorem isPowerOfTwo_iff_popcount (n : Word) : isPowerOfTwo n = true ↔ popcount n ≤ 1 := by
  rw [isPowerOfTwo_iff, popcount_le_one_iff]
  constructor
  · rintro (rfl | ⟨k, hk, rfl⟩) i j hi hj
    · simp at hi
    · rw [getLsbD_one_shiftLeft k _ hk, decide_eq_true_iff] at hi hj
      exact hi.trans hj.symm
  · intro h
    refine or_iff_not_imp_left.mpr fun hn => ?_
    obtain ⟨k, hk, hbit⟩ := exists_bit_of_ne_zero n hn
    have hk63 : k ≤ 63 := by omega
    exact ⟨k, hk63, eq_one_shiftLeft n k hk63 fun i => ⟨fun hi => h i k hi hbit, fun hi => hi ▸ hbit⟩⟩

/-- The 65 words of R74: 0, and `1 << k` for `k` in `[0, 63]`. -/
def atMostOneBitWords : List Word := 0#64 :: (List.range 64).map (fun k => 1#64 <<< k)

theorem mem_atMostOneBitWords (n : Word) :
    n ∈ atMostOneBitWords ↔ n = 0#64 ∨ ∃ k, k ≤ 63 ∧ n = 1#64 <<< k := by
  simp only [atMostOneBitWords, List.mem_cons, List.mem_map, List.mem_range, Nat.lt_succ_iff, @eq_comm _ n]

theorem nodup_atMostOneBitWords : atMostOneBitWords.Nodup := by
  have le63 : ∀ {k}, k ∈ List.range 64 → k ≤ 63 := fun hk => Nat.le_of_lt_succ (List.mem_range.mp hk)
  refine List.nodup_cons.mpr ⟨fun hzero => ?_, List.Nodup.map_on (fun k hk l hl h => ?_) List.nodup_range⟩
  · obtain ⟨k, hk, h⟩ := List.mem_map.mp hzero
    exact one_shiftLeft_ne_zero k (le63 hk) h
  · rw [← highestSetBit_one_shiftLeft k (le63 hk), h, highestSetBit_one_shiftLeft l (le63 hl)]

/-- Settles O28: by the number of set bits, by value, by the list, and by the lowest set bit. -/
theorem isPowerOfTwoCharacterised : Obligations.IsPowerOfTwoCharacterised := by
  refine ⟨isPowerOfTwo_iff_popcount, isPowerOfTwo_iff, ⟨atMostOneBitWords, rfl, nodup_atMostOneBitWords, fun n => ?_⟩,
    getLsbD_and_sub_one⟩
  rw [isPowerOfTwo_iff, mem_atMostOneBitWords]

/-- Settles O27: at 0 by computing, from 1 on by subtraction without a borrow. -/
theorem decrementWrapsOnlyAtZero : Obligations.DecrementWrapsOnlyAtZero := by
  refine ⟨rfl, isPowerOfTwo_zero, fun _ => BitVec.zero_and, fun n hn => ?_⟩
  exact toNat_sub_one n ((one_le_toNat_iff n).mp hn)

theorem wordOfBool_isPowerOfTwo (n : Word) :
    wordOfBool (isPowerOfTwo n) = if n &&& (n - 1#64) = 0#64 then 1#64 else 0#64 := by
  simp only [wordOfBool, isPowerOfTwo_eq_true_iff]

/-- Settles O12: the instruction drives `y` with the word of the test. -/
theorem isPowerOfTwoResult : Obligations.IsPowerOfTwoResult := by
  intro s n b
  refine ⟨rfl, ?_⟩
  rw [← wordOfBool_isPowerOfTwo]
  exact exec_eq_driveY (.isPowerOfTwo n b) s

end Sys2Proof.Machine
end

section
/-! PROOFS. A word as the sum of its bits, and sums over the bits read from the other end (spec/41_reverse_bits.md
R80). -/

namespace Sys2Proof.Machine

theorem natOfBits_eq_sum (f : Nat → Bool) (k : Nat) :
    natOfBits f k = ∑ i ∈ Finset.range k, (if f i then 2 ^ i else 0) := by
  induction k with
  | zero => rfl
  | succ k ih => rw [natOfBits, Finset.sum_range_succ, ih]

theorem toNat_wordOfBits (f : Nat → Bool) :
    (wordOfBits f).toNat = ∑ i ∈ Finset.range 64, (if f i then 2 ^ i else 0) := by
  rw [wordOfBits, BitVec.toNat_ofNat, Nat.mod_eq_of_lt (natOfBits_lt_two_pow f 64), natOfBits_eq_sum]

theorem popcount_eq_sum (x : Word) : popcount x = ∑ i ∈ Finset.range 64, (if x.getLsbD i then 1 else 0) := by
  rw [popcount, popcountBelow_eq_count, Nat.count_eq_card_filter_range, Finset.card_filter]

/-- Summing a weight over the bits of `n`, taken from the top down or from the bottom up. -/
theorem sum_bits_reflect (n : Word) (weight : Nat → Nat) :
    ∑ i ∈ Finset.range 64, (if n.getLsbD (63 - i) then weight i else 0) =
      ∑ j ∈ Finset.range 64, (if n.getLsbD j then weight (63 - j) else 0) := by
  rw [← Finset.sum_range_reflect (fun j => if n.getLsbD j then weight (63 - j) else 0) 64]
  refine Finset.sum_congr rfl fun i hi => ?_
  have twice : 63 - (63 - i) = i := Nat.sub_sub_self (Nat.le_of_lt_succ (Finset.mem_range.mp hi))
  simp only [Nat.add_one_sub_one, twice]

end Sys2Proof.Machine
end

section
/-! PROOFS. What `reverse_bits` answers, and the consequences of its bit rule (spec/41_reverse_bits.md R80, R83). -/

namespace Sys2Proof.Machine

theorem getLsbD_reverseBits_of_lt (n : Word) (i : Nat) (h : i < 64) :
    (reverseBits n).getLsbD i = n.getLsbD (63 - i) := by
  rw [getLsbD_reverseBits, decide_eq_true h, Bool.true_and]

theorem toNat_reverseBits (n : Word) :
    (reverseBits n).toNat = ∑ i ∈ Finset.range 64, (if n.getLsbD (63 - i) then 2 ^ i else 0) :=
  toNat_wordOfBits _

/-- Settles O13: the word driven onto `y` has the bits by definition; its value is the sum of them, read from either end
of `n`. -/
theorem reverseBitsResult : Obligations.ReverseBitsResult := by
  intro s n b
  exact ⟨rfl, reverseBits n, exec_eq_driveY (.reverseBits n b) s, getLsbD_reverseBits_of_lt n, toNat_reverseBits n,
    (toNat_reverseBits n).trans (sum_bits_reflect n (2 ^ ·))⟩

@[simp] theorem reverseBits_reverseBits (x : Word) : reverseBits (reverseBits x) = x := by
  apply word_ext
  intro i hi
  rw [getLsbD_reverseBits_of_lt _ i hi, getLsbD_reverseBits_of_lt x (63 - i) (by omega),
    Nat.sub_sub_self (Nat.le_of_lt_succ hi)]

theorem reverseBits_involutive : Function.Involutive reverseBits := reverseBits_reverseBits

theorem popcount_reverseBits (x : Word) : popcount (reverseBits x) = popcount x := by
  have reversed : ∀ i ∈ Finset.range 64,
      (if (reverseBits x).getLsbD i then 1 else 0) = if x.getLsbD (63 - i) then 1 else 0 := fun i hi => by
    rw [getLsbD_reverseBits_of_lt x i (Finset.mem_range.mp hi)]
  rw [popcount_eq_sum, popcount_eq_sum, Finset.sum_congr rfl reversed, sum_bits_reflect x (fun _ => 1)]

theorem reverseBits_or (x z : Word) : reverseBits (x ||| z) = reverseBits x ||| reverseBits z := by
  apply word_ext
  intro i hi
  simp only [BitVec.getLsbD_or, getLsbD_reverseBits_of_lt _ i hi]

theorem reverseBits_and (x z : Word) : reverseBits (x &&& z) = reverseBits x &&& reverseBits z := by
  apply word_ext
  intro i hi
  simp only [BitVec.getLsbD_and, getLsbD_reverseBits_of_lt _ i hi]

/-- The one set bit `k` goes to `63 − k`. -/
theorem reverseBits_one_shiftLeft (k : Nat) (h : k ≤ 63) : reverseBits (1#64 <<< k) = 1#64 <<< (63 - k) := by
  apply word_ext
  intro i hi
  have mirrored : 63 - i = k ↔ i = 63 - k := by omega
  rw [getLsbD_reverseBits_of_lt _ i hi, getLsbD_one_shiftLeft k _ h, getLsbD_one_shiftLeft (63 - k) i (by omega),
    decide_eq_decide.mpr mirrored]

/-- Settles O29, each part by the bit rule of the reversal. The order is lost on 1 < 2, whose reversals are `2^63` and
`2^62`; addition on 1 + 1, where the sum of the reversals wraps to 0. -/
theorem reverseBitsIsAnInvolution : Obligations.ReverseBitsIsAnInvolution := by
  refine ⟨reverseBits_involutive, reverseBits_involutive.bijective, popcount_reverseBits, reverseBits_or,
    reverseBits_and, reverseBits_one_shiftLeft, ⟨1#64, 2#64, ?order⟩, ⟨1#64, 1#64, ?sum⟩⟩
  case order => decide
  case sum => decide

end Sys2Proof.Machine
end

section
/-! PROOFS. The fixed points of `reverse_bits`: a palindrome is determined by its low half, which is any 32-bit word
(spec/41_reverse_bits.md R85). -/

namespace Sys2Proof.Machine

theorem reverseBits_eq_self_iff (n : Word) :
    reverseBits n = n ↔ ∀ i, i ≤ 63 → n.getLsbD i = n.getLsbD (63 - i) := by
  constructor
  · intro h i hi
    rw [← getLsbD_reverseBits_of_lt n i (Nat.lt_succ_of_le hi), h]
  · intro h
    apply word_ext
    intro i hi
    rw [getLsbD_reverseBits_of_lt n i hi, h i (Nat.le_of_lt_succ hi)]

/-- The palindrome whose low half is `half`: `half`, and its mirror image in the upper half. -/
def palindromeOf (half : BitVec 32) : Word := half.setWidth 64 ||| reverseBits (half.setWidth 64)

theorem getLsbD_palindromeOf (half : BitVec 32) (i : Nat) (h : i < 64) :
    (palindromeOf half).getLsbD i = (half.getLsbD i || half.getLsbD (63 - i)) := by
  rw [palindromeOf, BitVec.getLsbD_or, getLsbD_reverseBits_of_lt _ i h]
  simp [h, show 63 - i < 64 by omega]

theorem reverseBits_palindromeOf (half : BitVec 32) : reverseBits (palindromeOf half) = palindromeOf half := by
  rw [palindromeOf, reverseBits_or, reverseBits_reverseBits, BitVec.or_comm]

/-- The low half of `palindromeOf half` is `half`, so no two halves give the same palindrome. -/
theorem setWidth_palindromeOf (half : BitVec 32) : (palindromeOf half).setWidth 32 = half := by
  apply BitVec.eq_of_getLsbD_eq
  intro i hi
  have above : half.getLsbD (63 - i) = false := BitVec.getLsbD_of_ge _ _ (by omega)
  rw [BitVec.getLsbD_setWidth, getLsbD_palindromeOf half i (by omega), above, decide_eq_true hi, Bool.true_and,
    Bool.or_false]

theorem palindromeOf_injective : Function.Injective palindromeOf :=
  Function.LeftInverse.injective setWidth_palindromeOf

/-- A fixed point is the palindrome of its own low half: of `i` and `63 - i` one is below 32, and both bits are `n[i]`. -/
theorem palindromeOf_setWidth (n : Word) (h : reverseBits n = n) : palindromeOf (n.setWidth 32) = n := by
  apply word_ext
  intro i hi
  have mirror : n.getLsbD (63 - i) = n.getLsbD i := ((reverseBits_eq_self_iff n).mp h i (Nat.le_of_lt_succ hi)).symm
  rw [getLsbD_palindromeOf _ i hi, BitVec.getLsbD_setWidth, BitVec.getLsbD_setWidth, mirror]
  by_cases low : i < 32
  · simp [low, show ¬ 63 - i < 32 by omega]
  · simp [low, show 63 - i < 32 by omega]

/-- Settles O30: the fixed points are the palindromes, numbered by their low halves. -/
theorem reverseBitsFixedPoints : Obligations.ReverseBitsFixedPoints := by
  refine ⟨reverseBits_eq_self_iff, palindromeOf, palindromeOf_injective, fun n => ⟨fun h => ?_, ?_⟩⟩
  · exact ⟨n.setWidth 32, palindromeOf_setWidth n h⟩
  · rintro ⟨half, rfl⟩
    exact reverseBits_palindromeOf half

end Sys2Proof.Machine
end

section
/-! PROOFS. The highest set bit as the base-2 logarithm, and what `log2_pow2` answers (spec/42_log2_pow2.md R90, R93,
R95). -/

namespace Sys2Proof.Machine

theorem highestSetBit_eq_log (n : Word) (h : n ≠ 0#64) : highestSetBit n = Nat.log 2 n.toNat := by
  obtain ⟨lower, upper⟩ := highestSetBit_bounds n h
  exact (Nat.log_eq_of_pow_le_of_lt_pow lower upper).symm

theorem two_pow_le_toNat_iff (n : Word) (h : n ≠ 0#64) (j : Nat) : 2 ^ j ≤ n.toNat ↔ j ≤ highestSetBit n := by
  have hpos : n.toNat ≠ 0 := Nat.one_le_iff_ne_zero.mp ((one_le_toNat_iff n).mpr h)
  rw [highestSetBit_eq_log n h, Nat.le_log_iff_pow_le Nat.one_lt_two hpos]

theorem exec_log2Pow2 (n b : Word) (s : State) :
    exec (.log2Pow2 n b) s = .next { s with y := log2Pow2 Config.thisUnit n } :=
  exec_eq_driveY (.log2Pow2 n b) s

/-- Settles O14: from 1 on `k` is the highest set bit, by its spec lemmas; at 0 the test comes first. -/
theorem log2Pow2Result : Obligations.Log2Pow2Result := by
  intro s n b
  refine ⟨rfl, fun hn => ?pos, ?zero⟩
  case pos =>
    have h := (one_le_toNat_iff n).mp hn
    obtain ⟨hlt, hset, habove⟩ := highestSetBit_spec n h
    refine ⟨highestSetBit n, Nat.le_of_lt_succ hlt, ?_, hset, habove, (highestSetBit_bounds n h).1,
      fun j => (two_pow_le_toNat_iff n h j).mp⟩
    rw [exec_log2Pow2, log2Pow2_of_ne_zero _ n h]
  case zero =>
    rintro rfl
    rw [exec_log2Pow2, log2Pow2_zero, Config.thisUnit]

theorem log2Pow2_one_shiftLeft (p : Config.Params) (k : Nat) (h : k ≤ 63) :
    log2Pow2 p (1#64 <<< k) = BitVec.ofNat 64 k := by
  rw [log2Pow2_of_ne_zero p _ (one_shiftLeft_ne_zero k h), highestSetBit_one_shiftLeft k h]

theorem toNat_log2Pow2_eq_log (p : Config.Params) (n : Word) (hn : 1 ≤ n.toNat) :
    (log2Pow2 p n).toNat = Nat.log 2 n.toNat := by
  have h := (one_le_toNat_iff n).mp hn
  rw [toNat_log2Pow2 p n h, highestSetBit_eq_log n h]

/-- Settles O31: the window of `2^k` is `k`, and the highest set bit is the logarithm. -/
theorem log2IsExactOnPowersAndFloorOtherwise : Obligations.Log2IsExactOnPowersAndFloorOtherwise :=
  ⟨log2Pow2_one_shiftLeft, toNat_log2Pow2_eq_log⟩

/-- Bits below the highest set bit neither lower `n` nor carry it to the next power of two. -/
theorem highestSetBit_or_of_lt (n z : Word) (h : n ≠ 0#64) (hz : z.toNat < 2 ^ highestSetBit n) :
    highestSetBit (n ||| z) = highestSetBit n := by
  obtain ⟨lower, upper⟩ := highestSetBit_bounds n h
  have hz' : z.toNat < 2 ^ (highestSetBit n + 1) := hz.trans (Nat.pow_lt_pow_succ Nat.one_lt_two)
  apply highestSetBit_unique <;> rw [BitVec.toNat_or]
  · exact lower.trans Nat.left_le_or
  · exact Nat.or_lt_two_pow upper hz'

theorem log2Pow2_or_of_lt (p : Config.Params) (n z : Word) (hn : 1 ≤ n.toNat)
    (hz : z.toNat < 2 ^ (log2Pow2 p n).toNat) : log2Pow2 p (n ||| z) = log2Pow2 p n := by
  have h := (one_le_toNat_iff n).mp hn
  have hor : n ||| z ≠ 0#64 := by
    rw [← one_le_toNat_iff, BitVec.toNat_or]
    exact hn.trans Nat.left_le_or
  rw [toNat_log2Pow2 p n h] at hz
  rw [log2Pow2_of_ne_zero p _ hor, log2Pow2_of_ne_zero p n h, highestSetBit_or_of_lt n z h hz]

/-- Settles O32: the low bits by the bounds of the highest set bit, the order by the logarithm's, 63 by the word's
width. -/
theorem log2IsMonotoneAndSeesOnlyTheHighestBit : Obligations.Log2IsMonotoneAndSeesOnlyTheHighestBit := by
  refine ⟨log2Pow2_or_of_lt, fun p m n hm hmn => ?monotone, fun p n hn => ?bound⟩
  case monotone =>
    rw [toNat_log2Pow2_eq_log p m hm, toNat_log2Pow2_eq_log p n (hm.trans hmn)]
    exact Nat.log_mono_right hmn
  case bound =>
    have h := (one_le_toNat_iff n).mp hn
    rw [toNat_log2Pow2 p n h]
    exact Nat.le_of_lt_succ (highestSetBit_spec n h).1

end Sys2Proof.Machine
end

section
/-! PROOFS. `reverse_bits_limited` for `n >= 1`: it sees `n` only through the index of the highest set bit, and `value`
only through the bits below that index (spec/43_reverse_bits_limited.md R100, R103, R105). -/

namespace Sys2Proof.Machine

theorem ne_zero_of_two_pow_le (n : Word) (w : Nat) (h : 2 ^ w ≤ n.toNat) : n ≠ 0#64 :=
  (one_le_toNat_iff n).mp (Nat.one_le_two_pow.trans h)

/-- No bit of the result stands at the window's width or above. -/
theorem toNat_reverseBitsLimited_lt (p : Config.Params) (n value : Word) (h : n ≠ 0#64) :
    (reverseBitsLimited p n value).toNat < 2 ^ highestSetBit n := by
  apply Nat.lt_pow_two_of_testBit
  intro j hj
  rw [BitVec.testBit_toNat, getLsbD_reverseBitsLimited p n value h, decide_eq_false hj.not_gt, Bool.false_and]

theorem reverseBitsLimited_congr (p : Config.Params) (n m v v' : Word) (hn : n ≠ 0#64) (hm : m ≠ 0#64)
    (window : highestSetBit m = highestSetBit n) (low : ∀ i, i < highestSetBit n → v.getLsbD i = v'.getLsbD i) :
    reverseBitsLimited p n v = reverseBitsLimited p m v' := by
  apply word_ext
  intro j _
  rw [getLsbD_reverseBitsLimited p n v hn, getLsbD_reverseBitsLimited p m v' hm, window]
  by_cases hj : j < highestSetBit n
  · rw [low (highestSetBit n - 1 - j) (by omega)]
  · rw [decide_eq_false hj, Bool.false_and, Bool.false_and]

theorem getLsbD_ofNat_mod_two_pow (value : Word) (w i : Nat) (hi : i < w) (hw : w ≤ 63) :
    (BitVec.ofNat 64 (value.toNat % 2 ^ w)).getLsbD i = value.getLsbD i := by
  rw [BitVec.getLsbD_ofNat, Nat.testBit_mod_two_pow, BitVec.testBit_toNat, decide_eq_true hi,
    decide_eq_true (show i < 64 by omega), Bool.true_and, Bool.true_and]

/-- Any `n >= 1` may be replaced by the power of two below it, `value` by its residue modulo that (R105). -/
theorem reverseBitsLimited_eq_one_shiftLeft_mod (p : Config.Params) (n value : Word) (h : n ≠ 0#64) :
    reverseBitsLimited p n value =
      reverseBitsLimited p (1#64 <<< highestSetBit n) (BitVec.ofNat 64 (value.toNat % 2 ^ highestSetBit n)) := by
  have hw : highestSetBit n ≤ 63 := Nat.le_of_lt_succ (highestSetBit_spec n h).1
  exact reverseBitsLimited_congr p n _ value _ h (one_shiftLeft_ne_zero _ hw) (highestSetBit_one_shiftLeft _ hw)
    fun i hi => (getLsbD_ofNat_mod_two_pow value _ i hi hw).symm

end Sys2Proof.Machine
end

section
/-! PROOFS. What `reverse_bits_limited` answers, by itself and by parts, out of domain too
(spec/43_reverse_bits_limited.md R100, R101, R105). -/

namespace Sys2Proof.Machine

theorem exec_reverseBitsLimited (n value : Word) (s : State) :
    exec (.reverseBitsLimited n value) s = .next { s with y := reverseBitsLimited Config.thisUnit n value } :=
  exec_eq_driveY (.reverseBitsLimited n value) s

/-- Settles O15: from 1 on by the window `w` of `n`, the bits and the range each by its lemma; at 0 the test comes
first. -/
theorem reverseBitsLimitedResult : Obligations.ReverseBitsLimitedResult := by
  intro s n value
  refine ⟨rfl, fun w lower upper => ?pos, ?zero⟩
  case pos =>
    have h := ne_zero_of_two_pow_le n w lower
    obtain rfl := highestSetBit_unique n w lower upper
    refine ⟨reverseBitsLimited Config.thisUnit n value, exec_reverseBitsLimited n value s,
      reverseBitsLimited_of_ne_zero _ n value h, fun j _ => ?_, toNat_reverseBitsLimited_lt _ n value h⟩
    rw [getLsbD_reverseBitsLimited _ n value h]
    by_cases hj : j < highestSetBit n <;> simp [hj]
  case zero =>
    rintro rfl
    rw [exec_reverseBitsLimited, reverseBitsLimited_zero, Config.thisUnit]

theorem y_of_exec (i : Instr) (s t : State) (h : exec i s = .next t) :
    t.y = unitFunction Config.thisUnit (commandOf i) := by
  rw [← Host.Outcome.next.inj ((exec_eq_driveY i s).symm.trans h), driveY_y]

/-- Settles O33: the three answers are the three functions, whatever the states, and the logarithm is at most 63. -/
theorem reverseBitsLimitedByParts : Obligations.ReverseBitsLimitedByParts := by
  intro s1 s2 s3 t1 t2 t3 n value hn h1 h2 h3
  have h := (one_le_toNat_iff n).mp hn
  have hlog : t1.y.toNat = highestSetBit n := by
    rw [y_of_exec _ s1 t1 h1]
    exact toNat_log2Pow2 Config.thisUnit n h
  have hreverse : t2.y = reverseBits value := y_of_exec _ s2 t2 h2
  have hlimited : t3.y = reverseBitsLimited Config.thisUnit n value := y_of_exec _ s3 t3 h3
  have hlt := (highestSetBit_spec n h).1
  rw [hlog, hreverse, hlimited]
  exact ⟨by omega, by omega, reverseBitsLimited_of_ne_zero _ n value h⟩

/-- Settles O37: the result is that of the power of two and the residue; for `n = 1` the shift is by 64; the two results
for `n = 8` by computing the shifted reversals. -/
theorem outOfDomainResultIsTheStatedComputation : Obligations.OutOfDomainResultIsTheStatedComputation := by
  intro p
  refine ⟨fun w value hw => ?power, fun w n value lower upper => ?any, fun value => ?one, ?nine, ?four⟩
  case power =>
    have residue := reverseBitsLimited_eq_one_shiftLeft_mod p _ value (one_shiftLeft_ne_zero w hw)
    rwa [highestSetBit_one_shiftLeft w hw] at residue
  case any =>
    have h := ne_zero_of_two_pow_le n w lower
    obtain rfl := highestSetBit_unique n w lower upper
    exact ⟨reverseBitsLimited_eq_one_shiftLeft_mod p n value h, toNat_reverseBitsLimited_lt p n value h⟩
  case one =>
    rw [reverseBitsLimited_of_ne_zero p _ _ (by decide)]
    exact shr_eq_zero_of_le _ _ (by decide)
  case nine =>
    rw [reverseBitsLimited_of_ne_zero p _ _ (by decide)]
    decide
  case four =>
    rw [reverseBitsLimited_of_ne_zero p _ _ (by decide)]
    decide

end Sys2Proof.Machine
end

section
/-! PROOFS. In domain `reverse_bits_limited` permutes the words below `n = 2^w`
(spec/43_reverse_bits_limited.md R107, R111). -/

namespace Sys2Proof.Machine

theorem getLsbD_reverseBitsLimited_one_shiftLeft (p : Config.Params) (w : Nat) (hw : w ≤ 63) (v : Word) (j : Nat) :
    (reverseBitsLimited p (1#64 <<< w) v).getLsbD j = (decide (j < w) && v.getLsbD (w - 1 - j)) := by
  rw [getLsbD_reverseBitsLimited p _ v (one_shiftLeft_ne_zero w hw), highestSetBit_one_shiftLeft w hw]

theorem toNat_reverseBitsLimited_one_shiftLeft_lt (p : Config.Params) (w : Nat) (hw : w ≤ 63) (v : Word) :
    (reverseBitsLimited p (1#64 <<< w) v).toNat < (1#64 <<< w : Word).toNat := by
  have range := toNat_reverseBitsLimited_lt p _ v (one_shiftLeft_ne_zero w hw)
  rwa [highestSetBit_one_shiftLeft w hw, ← toNat_one_shiftLeft w hw] at range

theorem getLsbD_of_toNat_lt_one_shiftLeft (v : Word) (w : Nat) (hw : w ≤ 63)
    (hv : v.toNat < (1#64 <<< w : Word).toNat) (j : Nat) (hj : w ≤ j) : v.getLsbD j = false := by
  rw [toNat_one_shiftLeft w hw] at hv
  rw [← BitVec.testBit_toNat]
  exact Nat.testBit_lt_two_pow (hv.trans_le (Nat.pow_le_pow_right Nat.two_pos hj))

/-- Below `w` bit `j` goes to `w - 1 - j` and back; from `w` on `v` has only zeros. -/
theorem reverseBitsLimited_reverseBitsLimited (p : Config.Params) (w : Nat) (hw : w ≤ 63) (v : Word)
    (hv : v.toNat < (1#64 <<< w : Word).toNat) :
    reverseBitsLimited p (1#64 <<< w) (reverseBitsLimited p (1#64 <<< w) v) = v := by
  apply word_ext
  intro j _
  rw [getLsbD_reverseBitsLimited_one_shiftLeft p w hw, getLsbD_reverseBitsLimited_one_shiftLeft p w hw]
  by_cases hj : j < w
  · simp [hj, show w - 1 - j < w by omega, show w - 1 - (w - 1 - j) = j by omega]
  · simp [hj, getLsbD_of_toNat_lt_one_shiftLeft v w hw hv j (not_lt.mp hj)]

/-- "An involution on a finite set that maps the set into itself is a permutation of it" (R107). -/
theorem bijOn_reverseBitsLimited (p : Config.Params) (w : Nat) (hw : w ≤ 63) :
    Set.BijOn (reverseBitsLimited p (1#64 <<< w)) {v : Word | v.toNat < (1#64 <<< w : Word).toNat}
      {v : Word | v.toNat < (1#64 <<< w : Word).toNat} := by
  have inverse := reverseBitsLimited_reverseBitsLimited p w hw
  have range := toNat_reverseBitsLimited_one_shiftLeft_lt p w hw
  exact Set.InvOn.bijOn ⟨inverse, inverse⟩ (fun v _ => range v) (fun v _ => range v)

theorem reverseBitsLimited_one_shiftLeft_zero (p : Config.Params) (w : Nat) (hw : w ≤ 63) :
    reverseBitsLimited p (1#64 <<< w) 0#64 = 0#64 := by
  apply word_ext
  intro j _
  rw [getLsbD_reverseBitsLimited_one_shiftLeft p w hw, BitVec.getLsbD_zero, BitVec.getLsbD_zero, Bool.and_false]

theorem getLsbD_one_shiftLeft_sub_one (w : Nat) (hw : w ≤ 63) (j : Nat) :
    ((1#64 <<< w) - 1#64 : Word).getLsbD j = decide (j < w) := by
  rw [← BitVec.testBit_toNat, toNat_sub_one _ (one_shiftLeft_ne_zero w hw), toNat_one_shiftLeft w hw,
    Nat.testBit_two_pow_sub_one]

/-- The `w` ones of `n - 1` stay in place as a whole. -/
theorem reverseBitsLimited_one_shiftLeft_sub_one (p : Config.Params) (w : Nat) (hw : w ≤ 63) :
    reverseBitsLimited p (1#64 <<< w) ((1#64 <<< w) - 1#64) = (1#64 <<< w) - 1#64 := by
  apply word_ext
  intro j _
  rw [getLsbD_reverseBitsLimited_one_shiftLeft p w hw, getLsbD_one_shiftLeft_sub_one w hw,
    getLsbD_one_shiftLeft_sub_one w hw]
  by_cases hj : j < w
  · simp [hj, show w - 1 - j < w by omega]
  · simp [hj]

/-- Settles O34, from the bit rule of the window: range, involution, hence a bijection; and the two endpoints, of which
the lower covers the identity on unary. -/
theorem reverseBitsLimitedProperties : Obligations.ReverseBitsLimitedProperties := by
  rintro p w n hw rfl
  have zero := reverseBitsLimited_one_shiftLeft_zero p w hw
  exact ⟨fun v _ => toNat_reverseBitsLimited_one_shiftLeft_lt p w hw v, reverseBitsLimited_reverseBitsLimited p w hw,
    bijOn_reverseBitsLimited p w hw, fun _ => zero, zero, reverseBitsLimited_one_shiftLeft_sub_one p w hw⟩

/-- The first `k` results for an `n >= 1` are shifted reversals, in which no unit's parameters occur. -/
theorem map_reverseBitsLimited_range (p : Config.Params) (n : Word) (h : n ≠ 0#64) (k : Nat) :
    (List.range k).map (fun v => (reverseBitsLimited p n (BitVec.ofNat 64 v)).toNat) =
      (List.range k).map (fun v => (shr (reverseBits (BitVec.ofNat 64 v)) (64 - highestSetBit n)).toNat) := by
  simp only [reverseBitsLimited_of_ne_zero p n _ h]

/-- Settles O38: without the parameters the tables are computed. -/
theorem smallPermutationTables : Obligations.SmallPermutationTables := by
  intro p
  rw [map_reverseBitsLimited_range p 1#64 (by decide), map_reverseBitsLimited_range p 2#64 (by decide),
    map_reverseBitsLimited_range p 4#64 (by decide), map_reverseBitsLimited_range p 8#64 (by decide),
    map_reverseBitsLimited_range p 16#64 (by decide)]
  decide

end Sys2Proof.Machine
end

section
/-! PROOFS. The six-stage tree: each stage exchanges the bits whose indices differ in one binary digit, so all six
complement the index (spec/44_laws_and_datapath.md R125). -/

namespace Sys2Proof.Machine

/-- The masks of the stages: the lower of the two partners, bit `t` of whose index is 0 (K3). -/
def treeMask : Fin 6 → Word
  | 0 => 0x5555555555555555#64
  | 1 => 0x3333333333333333#64
  | 2 => 0x0F0F0F0F0F0F0F0F#64
  | 3 => 0x00FF00FF00FF00FF#64
  | 4 => 0x0000FFFF0000FFFF#64
  | 5 => 0x00000000FFFFFFFF#64

theorem treeStage_eq_swapStage (t : Fin 6) (x : Word) : treeStage t x = swapStage (2 ^ t.val) (treeMask t) x := by
  fin_cases t <;> rfl

theorem getLsbD_treeMask : ∀ (t : Fin 6) (i : Nat), i < 64 → (treeMask t).getLsbD i = !i.testBit t := by
  decide

/-- The partner of `i` is `2^t` above it where bit `t` of `i` is 0, and `2^t` below it otherwise. -/
theorem xor_two_pow_eq_ite : ∀ (t : Fin 6) (i : Nat), i < 64 →
    i ^^^ 2 ^ t.val = if i.testBit t then i - 2 ^ t.val else 2 ^ t.val + i := by
  decide

theorem getLsbD_treeStage (t : Fin 6) (x : Word) (i : Nat) (hi : i < 64) :
    (treeStage t x).getLsbD i = x.getLsbD (i ^^^ 2 ^ t.val) := by
  rw [treeStage_eq_swapStage, getLsbD_swapStage, getLsbD_treeMask t i hi,
    getLsbD_treeMask t (i - 2 ^ t.val) ((Nat.sub_le _ _).trans_lt hi), xor_two_pow_eq_ite t i hi]
  by_cases below : i < 2 ^ t.val
  · simp [below, Nat.testBit_lt_two_pow below]
  · have partner : i.testBit t = !(i - 2 ^ t.val).testBit t := by
      rw [← Nat.testBit_two_pow_add_eq, Nat.add_sub_of_le (not_lt.mp below)]
    rw [partner]
    cases (i - 2 ^ t.val).testBit t <;> simp [below, hi]

theorem xor_two_pow_lt (t : Fin 6) (i : Nat) (hi : i < 64) : i ^^^ 2 ^ t.val < 64 :=
  Nat.xor_lt_two_pow (n := 6) hi (Nat.pow_lt_pow_right Nat.one_lt_two t.isLt)

theorem treeStage_comm (t u : Fin 6) (x : Word) : treeStage t (treeStage u x) = treeStage u (treeStage t x) := by
  apply word_ext
  intro i hi
  rw [getLsbD_treeStage t _ i hi, getLsbD_treeStage u _ _ (xor_two_pow_lt t i hi), getLsbD_treeStage u _ i hi,
    getLsbD_treeStage t _ _ (xor_two_pow_lt u i hi), Nat.xor_right_comm]

/-- Where bit `i` of the result comes from: the exchanges of the stages undone from the last to the first. -/
def sourceIndex (stages : List (Fin 6)) (i : Nat) : Nat := stages.foldr (fun t j => j ^^^ 2 ^ t.val) i

theorem sourceIndex_lt (stages : List (Fin 6)) (i : Nat) (hi : i < 64) : sourceIndex stages i < 64 := by
  induction stages with
  | nil => exact hi
  | cons t rest ih => exact xor_two_pow_lt t _ ih

theorem getLsbD_treeThrough (stages : List (Fin 6)) (x : Word) (i : Nat) (hi : i < 64) :
    (treeThrough stages x).getLsbD i = x.getLsbD (sourceIndex stages i) := by
  induction stages generalizing x with
  | nil => rfl
  | cons t rest ih => exact (ih (treeStage t x)).trans (getLsbD_treeStage t x _ (sourceIndex_lt rest i hi))

/-- Stages that between them complement all six digits of the index reverse the word. -/
theorem treeThrough_eq_reverseBits (stages : List (Fin 6)) (complement : ∀ i, i < 64 → sourceIndex stages i = 63 - i)
    (x : Word) : treeThrough stages x = reverseBits x := by
  apply word_ext
  intro i hi
  rw [getLsbD_treeThrough stages x i hi, complement i hi, getLsbD_reverseBits_of_lt x i hi]

theorem reversalTree_eq_reverseBits (x : Word) : reversalTree x = reverseBits x :=
  treeThrough_eq_reverseBits [0, 1, 2, 3, 4, 5] (by decide) x

/-- Settles O41: the exchange from the masks; all six stages, in either order, complement the index of a bit; the trace is
computed. -/
theorem reversalTreeIsReverseBits : Obligations.ReversalTreeIsReverseBits := by
  refine ⟨getLsbD_treeStage, treeStage_comm, reversalTree_eq_reverseBits, ?largestFirst, ?trace⟩
  case largestFirst => exact treeThrough_eq_reverseBits [5, 4, 3, 2, 1, 0] (by decide)
  case trace => decide

end Sys2Proof.Machine
end

section
/-! PROOFS. The leading-zero counter as a binary search (spec/44_laws_and_datapath.md R126). -/

namespace Sys2Proof.Machine

theorem highestSetBit_le (n : Word) (h : n ≠ 0#64) : highestSetBit n ≤ 63 :=
  Nat.le_of_lt_succ (highestSetBit_spec n h).1

theorem clz_le (x : Word) (h : x ≠ 0#64) : clz x ≤ 63 := by
  have := clz_add_highestSetBit x h
  omega

theorem highestSetBit_eq_sub_clz (x : Word) (h : x ≠ 0#64) : highestSetBit x = 63 - clz x := by
  have := clz_add_highestSetBit x h
  omega

/-- The top `h` bits are zero exactly when there are that many leading zeros. -/
theorem shr_eq_zero_iff_le_clz (x : Word) (hx : x ≠ 0#64) (h : Nat) (hh : h ≤ 64) :
    shr x (64 - h) = 0#64 ↔ h ≤ clz x := by
  have hclz := clz_add_highestSetBit x hx
  have small := two_pow_le_toNat_iff x hx (64 - h)
  rw [← BitVec.toNat_inj, toNat_shr, BitVec.toNat_zero, Nat.div_eq_zero_iff_lt (Nat.two_pow_pos _)]
  omega

theorem toNat_shl_of_le_clz (x : Word) (hx : x ≠ 0#64) (h : Nat) (hh : h ≤ clz x) :
    (shl x h).toNat = x.toNat * 2 ^ h := by
  have hclz := clz_add_highestSetBit x hx
  have upper := (highestSetBit_bounds x hx).2
  have noOverflow : x.toNat * 2 ^ h < 2 ^ 64 := calc
    x.toNat * 2 ^ h < 2 ^ (highestSetBit x + 1) * 2 ^ h := Nat.mul_lt_mul_of_pos_right upper (Nat.two_pow_pos h)
    _ = 2 ^ (highestSetBit x + 1 + h) := (Nat.pow_add _ _ _).symm
    _ ≤ 2 ^ 64 := Nat.pow_le_pow_right Nat.two_pos (by omega)
  rw [toNat_shl, Nat.mod_eq_of_lt noOverflow]

/-- Shifting leading zeros out loses no set bit and takes that many off the count. -/
theorem clz_shl (x : Word) (hx : x ≠ 0#64) (h : Nat) (hh : h ≤ clz x) :
    shl x h ≠ 0#64 ∧ clz (shl x h) + h = clz x := by
  have value := toNat_shl_of_le_clz x hx h hh
  obtain ⟨lower, upper⟩ := highestSetBit_bounds x hx
  have lower' : 2 ^ (highestSetBit x + h) ≤ (shl x h).toNat := by
    rw [value, Nat.pow_add]
    exact Nat.mul_le_mul_right _ lower
  have upper' : (shl x h).toNat < 2 ^ (highestSetBit x + h + 1) := by
    rw [value, Nat.add_right_comm, Nat.pow_add]
    exact Nat.mul_lt_mul_of_pos_right upper (Nat.two_pow_pos h)
  have hne := ne_zero_of_two_pow_le _ _ lower'
  have hclz := clz_add_highestSetBit x hx
  have hclz' := clz_add_highestSetBit _ hne
  rw [highestSetBit_unique _ _ lower' upper'] at hclz'
  exact ⟨hne, by omega⟩

/-- One stage of the search halves the range of the zeros not yet counted and keeps the total. -/
theorem clzStage_spec (c h : Nat) (x : Word) (hx : x ≠ 0#64) (hh : h ≤ 64) (range : clz x < 2 * h) :
    (clzStage (c, x) h).2 ≠ 0#64 ∧ clz (clzStage (c, x) h).2 < h ∧
      (clzStage (c, x) h).1 + clz (clzStage (c, x) h).2 = c + clz x := by
  by_cases top : h ≤ clz x
  · have stage : clzStage (c, x) h = (c + h, shl x h) := if_pos ((shr_eq_zero_iff_le_clz x hx h hh).mpr top)
    obtain ⟨hne, hsum⟩ := clz_shl x hx h top
    rw [stage]
    exact ⟨hne, (by omega : clz (shl x h) < h), (by omega : c + h + clz (shl x h) = c + clz x)⟩
  · have stage : clzStage (c, x) h = (c, x) := if_neg (mt (shr_eq_zero_iff_le_clz x hx h hh).mp top)
    rw [stage]
    exact ⟨hx, not_le.mp top, rfl⟩

/-- The distances of a `k`-stage counter, largest first. -/
def counterDistances : Nat → List Nat
  | 0 => []
  | k + 1 => 2 ^ k :: counterDistances k

/-- A `k`-stage counter counts any number of leading zeros below `2^k`. -/
theorem foldl_clzStage (k c : Nat) (x : Word) (hk : k ≤ 6) (hx : x ≠ 0#64) (range : clz x < 2 ^ k) :
    ((counterDistances k).foldl clzStage (c, x)).1 = c + clz x := by
  induction k generalizing c x with
  | zero =>
    have none : clz x = 0 := Nat.lt_one_iff.mp range
    rw [none]
    rfl
  | succ k ih =>
    have distance : 2 ^ k ≤ 64 := Nat.pow_le_pow_right (j := 6) Nat.two_pos (by omega)
    obtain ⟨hne, hlt, hsum⟩ := clzStage_spec c (2 ^ k) x hx distance (by omega)
    exact (ih _ _ (by omega) hne hlt).trans hsum

theorem clzCounter_eq_clz (n : Word) (h : n ≠ 0#64) : clzCounter n = clz n :=
  (foldl_clzStage 6 0 n le_rfl h (Nat.lt_succ_of_le (clz_le n h))).trans (Nat.zero_add _)

theorem toNat_clzIndex (n : Word) (h : n ≠ 0#64) : (clzIndex n).toNat = highestSetBit n := by
  have hlt := (highestSetBit_spec n h).1
  rw [clzIndex, clzCounter_eq_clz n h, ← highestSetBit_eq_sub_clz n h, BitVec.toNat_ofNat, Nat.mod_eq_of_lt hlt]

/-- An index that is the highest set bit, widened to a word, is `log2_pow2`. -/
theorem setWidth_eq_log2Pow2 (p : Config.Params) (n : Word) (h : n ≠ 0#64) (index : BitIndex)
    (hindex : index.toNat = highestSetBit n) : index.setWidth 64 = log2Pow2 p n := by
  rw [log2Pow2_of_ne_zero p n h, ← hindex, BitVec.ofNat_toNat]

/-- Settles O42: the counter by the induction over its stages, the logarithm from `clz(n) + k = 63`. -/
theorem leadingZeroCounterIsLog2 : Obligations.LeadingZeroCounterIsLog2 := by
  refine ⟨fun p n hn => ?_, by decide, by decide, by decide⟩
  have h := (one_le_toNat_iff n).mp hn
  refine ⟨clz_le n h, ?_, clzCounter_eq_clz n h, setWidth_eq_log2Pow2 p n h _ (toNat_clzIndex n h)⟩
  rw [toNat_log2Pow2 p n h, highestSetBit_eq_sub_clz n h]

end Sys2Proof.Machine
end

section
/-! PROOFS. The priority encoder and the one-hot encoder: an OR over the inputs of which one is selected
(spec/44_laws_and_datapath.md R127). -/

namespace Sys2Proof.Machine

/-- The priority selects the highest set bit and nothing else. -/
theorem getLsbD_and_noneAbove (n : Word) (h : n ≠ 0#64) (i : Nat) :
    (n.getLsbD i && noneAbove n i) = decide (i = highestSetBit n) := by
  obtain ⟨-, hset, habove⟩ := highestSetBit_spec n h
  rw [Bool.eq_iff_iff, Bool.and_eq_true, noneAbove_iff, decide_eq_true_iff]
  constructor
  · rintro ⟨hi, hnone⟩
    obtain hlt | heq | hgt := Nat.lt_trichotomy i (highestSetBit n)
    · exact absurd hset (by simp [hnone _ hlt])
    · exact heq
    · exact absurd hi (by simp [habove i hgt])
  · rintro rfl
    exact ⟨hset, habove⟩

/-- With input `k` alone selected, the OR gives the digits of `k`. -/
theorem indexOfBits_any (select : Nat → Bool) (k : Nat) (hk : k < 64) (only : ∀ i, select i = decide (i = k)) :
    indexOfBits (fun t => (List.range 64).any (fun i => i.testBit t && select i)) = BitVec.ofNat 6 k := by
  have digits : (fun t => (List.range 64).any (fun i => i.testBit t && select i)) = k.testBit := by
    funext t
    rw [Bool.eq_iff_iff, List.any_eq_true]
    simp only [only, List.mem_range, Bool.and_eq_true, decide_eq_true_iff]
    exact ⟨fun ⟨i, _, ht, hi⟩ => hi ▸ ht, fun ht => ⟨k, hk, ht, rfl⟩⟩
  apply BitVec.eq_of_getLsbD_eq
  intro t _
  rw [digits, indexOfBits, BitVec.getLsbD_ofNat, BitVec.getLsbD_ofNat, testBit_natOfBits, Bool.and_self_left]

theorem priorityEncoder_eq (n : Word) (h : n ≠ 0#64) : priorityEncoder n = BitVec.ofNat 6 (highestSetBit n) :=
  indexOfBits_any _ _ (highestSetBit_spec n h).1 (getLsbD_and_noneAbove n h)

theorem oneHotEncoder_one_shiftLeft (k : Nat) (h : k ≤ 63) : oneHotEncoder (1#64 <<< k) = BitVec.ofNat 6 k :=
  indexOfBits_any _ k (Nat.lt_succ_of_le h) (fun i => getLsbD_one_shiftLeft k i h)

theorem toNat_priorityEncoder (n : Word) (h : n ≠ 0#64) : (priorityEncoder n).toNat = highestSetBit n := by
  rw [priorityEncoder_eq n h, BitVec.toNat_ofNat, Nat.mod_eq_of_lt (highestSetBit_spec n h).1]

/-- Settles O43: both encoders by the one input selected, which for the one-hot encoder takes a power of two; the words 6
and 3 are computed. -/
theorem priorityEncoderIsLog2 : Obligations.PriorityEncoderIsLog2 := by
  refine ⟨fun p n hn => ?index, fun k hk => ?oneHot, by decide, by decide, by decide, by decide⟩
  case index =>
    have h := (one_le_toNat_iff n).mp hn
    have value := toNat_priorityEncoder n h
    exact ⟨setWidth_eq_log2Pow2 p n h _ value, value.trans (highestSetBit_eq_sub_clz n h)⟩
  case oneHot =>
    rw [oneHotEncoder_one_shiftLeft k hk, priorityEncoder_eq _ (one_shiftLeft_ne_zero k hk),
      highestSetBit_one_shiftLeft k hk]

end Sys2Proof.Machine
end

section
/-! PROOFS. The decrementer and the zero detector over it (spec/44_laws_and_datapath.md R128). -/

namespace Sys2Proof.Machine

theorem toNat_decrementer (n : Word) :
    (decrementer n).toNat = if n = 0#64 then 2 ^ 65 - 1 else n.toNat - 1 := by
  have wide : (0#1 ++ n : BitVec 65).toNat = n.toNat := by
    rw [BitVec.toNat_append, BitVec.toNat_zero, Nat.zero_shiftLeft, Nat.zero_or]
  have hlt := n.isLt
  rw [decrementer, BitVec.toNat_sub, wide]
  split_ifs with h
  · subst h
    rfl
  · have hpos := (one_le_toNat_iff n).mpr h
    simp only [BitVec.toNat_ofNat]
    omega

theorem setWidth_decrementer (n : Word) : (decrementer n).setWidth 64 = n - 1#64 := by
  apply BitVec.eq_of_toNat_eq
  rw [BitVec.toNat_setWidth, toNat_decrementer]
  split_ifs with h
  · subst h
    rfl
  · rw [toNat_sub_one n h, Nat.mod_eq_of_lt (by omega)]

theorem getLsbD_decrementer (n : Word) (i : Nat) (hi : i < 64) :
    (decrementer n).getLsbD i = (n - 1#64).getLsbD i := by
  rw [← setWidth_decrementer, BitVec.getLsbD_setWidth, decide_eq_true hi, Bool.true_and]

/-- The borrow out of bit 63: the difference is negative only at 0. -/
theorem getLsbD_decrementer_borrow (n : Word) : (decrementer n).getLsbD 64 = true ↔ n = 0#64 := by
  by_cases h : n = 0#64
  · subst h
    decide
  · have small : (decrementer n).toNat < 2 ^ 64 := by
      rw [toNat_decrementer, if_neg h]
      omega
    rw [← BitVec.testBit_toNat, Nat.testBit_lt_two_pow small]
    simp [h]

/-- The zero detector looks at the bits of `n & (n - 1)`. -/
theorem andIdentityTest_eq (n : Word) : andIdentityTest n = isPowerOfTwo n := by
  rw [Bool.eq_iff_iff, isPowerOfTwo_eq_true_iff, andIdentityTest, Bool.not_eq_true', List.any_eq_false]
  simp only [List.mem_range, Bool.not_eq_true]
  constructor
  · intro h
    apply word_ext
    intro i hi
    rw [BitVec.getLsbD_and, ← getLsbD_decrementer n i hi, h i hi, BitVec.getLsbD_zero]
  · intro h i hi
    rw [getLsbD_decrementer n i hi, ← BitVec.getLsbD_and, h, BitVec.getLsbD_zero]

/-- Settles O44: detector and low bits through `n - 1`, the borrow by the size of the difference. -/
theorem andIdentityTestIsIsPowerOfTwo : Obligations.AndIdentityTestIsIsPowerOfTwo := fun n =>
  ⟨andIdentityTest_eq n, setWidth_decrementer n, getLsbD_decrementer_borrow n⟩

end Sys2Proof.Machine
end

section
/-! PROOFS. The barrel shifter and the forcing to zero (spec/44_laws_and_datapath.md R129). -/

namespace Sys2Proof.Machine

/-- The first `k` stages of the barrel shift by the number of the low `k` bits of the amount. -/
theorem foldl_barrelStage (s : ShiftAmount) (x : Word) (k : Nat) :
    (List.range k).foldl (barrelStage s) x = shr x (natOfBits s.getLsbD k) := by
  induction k with
  | zero => exact (BitVec.ushiftRight_zero x).symm
  | succ k ih =>
    rw [List.range_succ, List.foldl_append, ih, List.foldl_cons, List.foldl_nil, barrelStage_eq_shr, shr_shr, natOfBits]

theorem natOfBits_getLsbD (s : ShiftAmount) (k : Nat) : natOfBits s.getLsbD k = s.toNat % 2 ^ k := by
  apply Nat.eq_of_testBit_eq
  intro i
  rw [testBit_natOfBits, Nat.testBit_mod_two_pow, BitVec.testBit_toNat]

theorem barrelShifter_eq_shr (s : ShiftAmount) (x : Word) : barrelShifter s x = shr x (s.toNat % 64) := by
  rw [barrelShifter, foldl_barrelStage, natOfBits_getLsbD]
  rfl

theorem getLsbD_shiftAmount_six (w : BitIndex) : (shiftAmount w).getLsbD 6 = decide (w = 0#6) := by
  rw [shiftAmount, BitVec.getLsbD_append, if_neg (by decide), BitVec.getLsbD_ofBool]
  exact Bool.beq_eq_decide_eq _ _

theorem toNat_shiftAmount (w : BitIndex) : (shiftAmount w).toNat = 64 - w.toNat := by
  by_cases h : w = 0#6
  · subst h
    rfl
  · have hlt := w.isLt
    have hpos : w.toNat ≠ 0 := fun h0 => h (BitVec.eq_of_toNat_eq h0)
    have bitSix : BitVec.ofBool (w == 0#6) = 0#1 := congrArg BitVec.ofBool (beq_eq_false_iff_ne.mpr h)
    have low : (0#6 - w).toNat = 64 - w.toNat := by
      rw [BitVec.toNat_sub, BitVec.toNat_zero]
      omega
    rw [shiftAmount, bitSix, BitVec.toNat_append, BitVec.toNat_zero, Nat.zero_shiftLeft, Nat.zero_or, low]

/-- Bit 6 stands for the shift by 64, which leaves nothing; any other amount the barrel does whole. -/
theorem limitedShifter_eq_shr (w : BitIndex) (r : Word) :
    limitedShifter (shiftAmount w) r = shr r (64 - w.toNat) := by
  rw [limitedShifter, getLsbD_shiftAmount_six, barrelShifter_eq_shr, toNat_shiftAmount]
  by_cases h : w = 0#6
  · subst h
    exact (shr_eq_zero_of_le r 64 le_rfl).symm
  · have hpos : w.toNat ≠ 0 := fun h0 => h (BitVec.eq_of_toNat_eq h0)
    rw [decide_eq_false h, Nat.mod_eq_of_lt (by omega)]
    rfl

/-- A left shift before the reversal is a right shift after it (R119 (d)). -/
theorem reverseBits_shl (x : Word) (s : Nat) : reverseBits (shl x s) = shr (reverseBits x) s := by
  apply word_ext
  intro i hi
  rw [getLsbD_reverseBits_of_lt _ i hi, getLsbD_shl, getLsbD_shr, getLsbD_reverseBits]
  by_cases h : s + i < 64
  · simp [h, show 63 - i < 64 by omega, show ¬ 63 - i < s by omega, show 63 - i - s = 63 - (s + i) by omega]
  · simp [h, show 63 - i < s by omega]

theorem reverseBitsLimited_one (p : Config.Params) (value : Word) : reverseBitsLimited p 1#64 value = 0#64 := by
  obtain ⟨-, -, one, -⟩ := outOfDomainResultIsTheStatedComputation p
  exact one value

theorem reverseBits_eq_zero_iff (value : Word) : reverseBits value = 0#64 ↔ value = 0#64 := by
  have zero : reverseBits 0#64 = 0#64 := by decide
  rw [reverseBits_involutive.eq_iff, zero]

/-- Settles O45: the amount, the barrel by its stages, the shift moved across the reversal; without bit 6 the amount for
`w = 0` is a shift by 0. -/
theorem limitedShifterIsTheRightShift : Obligations.LimitedShifterIsTheRightShift := by
  refine ⟨fun w => ⟨toNat_shiftAmount w, ?bitSix⟩, limitedShifter_eq_shr, fun w value => ?leftShifter,
    fun value => ?dropped, fun p value => ?agrees⟩
  case bitSix => rw [getLsbD_shiftAmount_six, decide_eq_true_iff]
  case leftShifter =>
    rw [reversalTree_eq_reverseBits, reversalTree_eq_reverseBits, reverseBits_shl, limitedShifter_eq_shr]
  case dropped =>
    rw [barrelShifter_eq_shr, toNat_shiftAmount]
    exact BitVec.ushiftRight_zero _
  case agrees =>
    rw [reverseBitsLimited_one]
    exact reverseBits_eq_zero_iff value

end Sys2Proof.Machine
end

section
/-! PROOFS. The dataflow of the whole unit around a log2 unit (spec/44_laws_and_datapath.md R120). -/

namespace Sys2Proof.Machine

theorem opSelect_cases : ∀ op : OpSelect, op = 0#2 ∨ op = 1#2 ∨ op = 2#2 ∨ op = 3#2 := by decide

/-- Any log2 unit that is right from 1 on will do; what it gives at 0 decides the open parameters. -/
theorem unitDatapath_eq_unitFunction (log2Unit : Word → BitIndex)
    (hindex : ∀ n, n ≠ 0#64 → (log2Unit n).toNat = highestSetBit n) (c : Command) :
    unitDatapath log2Unit c = unitFunction (datapathParams log2Unit) c := by
  obtain ⟨op, a, b⟩ := c
  obtain rfl | rfl | rfl | rfl := opSelect_cases op
  · exact congrArg wordOfBool (andIdentityTest_eq a)
  · show reversalTree (if (1#2).getLsbD 1 then b else a) = reverseBits a
    rw [if_neg (by decide), reversalTree_eq_reverseBits]
  · show (log2Unit a).setWidth 64 = log2Pow2 (datapathParams log2Unit) a
    by_cases h : a = 0#64
    · rw [h, log2Pow2_zero, datapathParams]
    · exact setWidth_eq_log2Pow2 _ a h _ (hindex a h)
  · show limitedShifter (shiftAmount (log2Unit a)) (reversalTree (if (3#2).getLsbD 1 then b else a)) =
      reverseBitsLimited (datapathParams log2Unit) a b
    rw [if_pos (by decide)]
    by_cases h : a = 0#64
    · rw [h, reverseBitsLimited_zero, datapathParams]
    · rw [limitedShifter_eq_shr, reversalTree_eq_reverseBits, hindex a h, reverseBitsLimited_of_ne_zero _ a b h]

/-- Settles O46: both log2 units give the highest set bit from 1 on. -/
theorem datapathComputesTheUnitFunction : Obligations.DatapathComputesTheUnitFunction := fun c =>
  ⟨unitDatapath_eq_unitFunction priorityEncoder toNat_priorityEncoder c,
    unitDatapath_eq_unitFunction clzIndex toNat_clzIndex c⟩

end Sys2Proof.Machine
end

section
/-! PROOFS. The source's invariants, of the unit, of the datapaths and of whatever agrees with them in domain
(spec/44_laws_and_datapath.md R118). -/

namespace Sys2Proof.Machine

theorem inDomain_log2Pow2_one_shiftLeft (k : Nat) (hk : k ≤ 63) (b : Word) :
    inDomain { op := 2#2, a := 1#64 <<< k, b := b } = true :=
  decide_eq_true ((one_le_toNat_iff _).mpr (one_shiftLeft_ne_zero k hk))

theorem inDomain_reverseBitsLimited_one_shiftLeft (w : Nat) (hw : w ≤ 63) (v : Word) (hv : v.toNat < 2 ^ w) :
    inDomain { op := 3#2, a := 1#64 <<< w, b := v } = true := by
  obtain ⟨-, -, -, limited, -⟩ := inDomainIsThePreconditions (1#64 <<< w) v
  have value := toNat_one_shiftLeft w hw
  exact limited.mpr ⟨⟨w, hw, value⟩, value.symm ▸ hv⟩

theorem unitFunction_meetsSourceInvariants (p : Config.Params) : MeetsSourceInvariants (unitFunction p) := by
  have range : LimitedStaysInRange (unitFunction p) := fun w v hw _ => by
    have below := toNat_reverseBitsLimited_one_shiftLeft_lt p w hw v
    rwa [toNat_one_shiftLeft w hw] at below
  have involution : LimitedIsInvolution (unitFunction p) := fun w v hw hv =>
    reverseBitsLimited_reverseBitsLimited p w hw v (by rwa [toNat_one_shiftLeft w hw])
  refine ⟨fun k b hk => ?power, fun x b b' => reverseBits_reverseBits x, range, involution,
    limitedIsBijection_of_range_of_involution _ range involution, fun k b hk => log2Pow2_one_shiftLeft p k hk⟩
  have test : isPowerOfTwo (1#64 <<< k) = true := (isPowerOfTwo_iff _).mpr (Or.inr ⟨k, hk, rfl⟩)
  exact congrArg wordOfBool test

/-- Every command an invariant speaks of is in domain; the one issued on an answer is so because of the range. -/
theorem meetsSourceInvariants_congr (f g : Command → Word) (agree : ∀ c : Command, inDomain c = true → f c = g c)
    (hf : MeetsSourceInvariants f) : MeetsSourceInvariants g := by
  obtain ⟨power, reversal, range, involution, -, log2⟩ := hf
  have limited : ∀ (w : Nat) (v : Word), w ≤ 63 → v.toNat < 2 ^ w →
      g { op := 3#2, a := 1#64 <<< w, b := v } = f { op := 3#2, a := 1#64 <<< w, b := v } := fun w v hw hv =>
    (agree _ (inDomain_reverseBitsLimited_one_shiftLeft w hw v hv)).symm
  have range' : LimitedStaysInRange g := fun w v hw hv => by
    rw [limited w v hw hv]
    exact range w v hw hv
  have involution' : LimitedIsInvolution g := fun w v hw hv => by
    rw [limited w v hw hv, limited w _ hw (range w v hw hv)]
    exact involution w v hw hv
  refine ⟨fun k b hk => ?power, fun x b b' => ?reversal, range', involution',
    limitedIsBijection_of_range_of_involution g range' involution', fun k b hk => ?log2⟩
  case power => exact (agree _ rfl).symm.trans (power k b hk)
  case reversal =>
    rw [← agree _ rfl, ← agree _ rfl]
    exact reversal x b b'
  case log2 => exact (agree _ (inDomain_log2Pow2_one_shiftLeft k hk b)).symm.trans (log2 k b hk)

/-- Settles O35: the unit's function meets them for any parameters, and each datapath is that function with its own. -/
theorem everyImplementationMeetsTheSourceInvariants : Obligations.EveryImplementationMeetsTheSourceInvariants := by
  have datapath : ∀ log2Unit : Word → BitIndex, (∀ n, n ≠ 0#64 → (log2Unit n).toNat = highestSetBit n) →
      MeetsSourceInvariants (unitDatapath log2Unit) := fun log2Unit hindex => by
    rw [funext (unitDatapath_eq_unitFunction log2Unit hindex)]
    exact unitFunction_meetsSourceInvariants _
  exact ⟨unitFunction_meetsSourceInvariants, datapath priorityEncoder toNat_priorityEncoder,
    datapath clzIndex toNat_clzIndex, meetsSourceInvariants_congr⟩

theorem exists_step_hostEnqueueFront (c : Command) (s : State) :
    ∃ t, step (hostEnqueueFront c s) = .next t ∧ t.y = unitFunction Config.thisUnit c :=
  ⟨_, step_of_cons _ c s.pending rfl, rfl⟩

theorem y_of_step_hostEnqueueFront (c : Command) (s t : State) (h : step (hostEnqueueFront c s) = .next t) :
    t.y = unitFunction Config.thisUnit c := by
  obtain ⟨t', hstep, hy⟩ := exists_step_hostEnqueueFront c s
  rw [← Host.Outcome.next.inj (hstep.symm.trans h), hy]

/-- Settles O36: the word read is `F` of the command issued, and `F` meets the invariants; the only index that reads `r` is
what the limited reversal of `r` reads. -/
theorem sourceInvariantsHoldOfTheMachine : Obligations.SourceInvariantsHoldOfTheMachine := by
  obtain ⟨power, reversal, range, involution, -, log2⟩ := unitFunction_meetsSourceInvariants Config.thisUnit
  refine ⟨fun s k b hk => ?power, fun s x b b' => ?reversal, fun s w v hw hv => ?limited, fun s w r hw hr => ?bijection,
    fun s k b hk => ?log2⟩
  case power =>
    obtain ⟨t, hstep, hy⟩ := exists_step_hostEnqueueFront { op := 0#2, a := 1#64 <<< k, b := b } s
    exact ⟨t, hstep, hy.trans (power k b hk)⟩
  case reversal =>
    obtain ⟨t, hstep, hy⟩ := exists_step_hostEnqueueFront { op := 1#2, a := x, b := b } s
    obtain ⟨u, hstep', hy'⟩ := exists_step_hostEnqueueFront { op := 1#2, a := t.y, b := b' } t
    exact ⟨t, u, hstep, hstep', by rw [hy', hy, reversal x b b']⟩
  case limited =>
    obtain ⟨t, hstep, hy⟩ := exists_step_hostEnqueueFront { op := 3#2, a := 1#64 <<< w, b := v } s
    obtain ⟨u, hstep', hy'⟩ := exists_step_hostEnqueueFront { op := 3#2, a := 1#64 <<< w, b := t.y } t
    exact ⟨t, u, hstep, hy ▸ range w v hw hv, hstep', by rw [hy', hy, involution w v hw hv]⟩
  case bijection =>
    refine ⟨_, ⟨range w r hw hr, ?_⟩, ?unique⟩
    · obtain ⟨t, hstep, hy⟩ := exists_step_hostEnqueueFront { op := 3#2, a := 1#64 <<< w, b := _ } s
      exact ⟨t, hstep, hy.trans (involution w r hw hr)⟩
    · rintro v ⟨hv, t, hstep, rfl⟩
      rw [y_of_step_hostEnqueueFront _ s t hstep, involution w v hw hv]
  case log2 =>
    obtain ⟨t, hstep, hy⟩ := exists_step_hostEnqueueFront { op := 2#2, a := 1#64 <<< k, b := b } s
    exact ⟨t, hstep, hy.trans (log2 k b hk)⟩

end Sys2Proof.Machine
end

section
/-! PROOFS. In domain no result rests on an open parameter (spec/44_laws_and_datapath.md R118, 60_exceptions.md R141). -/

namespace Sys2Proof.Machine

theorem unitFunction_congr_params (p q : Config.Params) (c : Command) (h : inDomain c = true) :
    unitFunction p c = unitFunction q c := by
  obtain ⟨op, a, b⟩ := c
  obtain ⟨-, -, log2, limited, -⟩ := inDomainIsThePreconditions a b
  obtain rfl | rfl | rfl | rfl := opSelect_cases op
  · rfl
  · rfl
  · have ha := (one_le_toNat_iff a).mp (log2.mp h)
    exact (log2Pow2_of_ne_zero p a ha).trans (log2Pow2_of_ne_zero q a ha).symm
  · obtain ⟨-, hlt⟩ := limited.mp h
    have ha := (one_le_toNat_iff a).mp (Nat.one_le_of_lt hlt)
    exact (reverseBitsLimited_of_ne_zero p a b ha).trans (reverseBitsLimited_of_ne_zero q a b ha).symm

theorem domainClass_of_inDomain (c : Command) (h : inDomain c = true) : domainClass c = .inside :=
  if_pos h

/-- Settles O25: the results are `F` of the commands issued, which in domain is that of any unit. -/
theorem contractKeptResultsRestOnNoParameter : Obligations.ContractKeptResultsRestOnNoParameter := by
  intro s t p kept hrun
  refine ⟨fun c hc => by simp [domainClass_of_inDomain c (kept c hc)], ?results⟩
  obtain ⟨t', hrun', -, hresults⟩ := core_run_pending s.pending s rfl
  rw [← Host.Outcome.next.inj (hrun'.symm.trans hrun), hresults,
    List.map_congr_left fun c hc => unitFunction_congr_params Config.thisUnit p c (kept c hc)]

end Sys2Proof.Machine
end

section
/-! PROOFS. The ranges of the results and the laws that connect the operations (spec/44_laws_and_datapath.md R117,
R119). -/

namespace Sys2Proof.Machine

theorem wordOfBool_eq_zero_or_one (t : Bool) : wordOfBool t = 0#64 ∨ wordOfBool t = 1#64 := by
  cases t
  · exact Or.inl rfl
  · exact Or.inr rfl

/-- Settles O39: from `a = 1` on by the bounds of the highest set bit, which is at most 63; at `a = 0` the unit whose
parameters are `y` answers `y`. -/
theorem resultRanges : Obligations.ResultRanges := by
  refine ⟨fun p a b => wordOfBool_eq_zero_or_one _, fun p b y => ⟨reverseBits y, reverseBits_reverseBits y⟩,
    fun p a b ha => ?log2, fun p a b ha => ?limited, fun b y => ⟨⟨y, fun _ => y⟩, log2Pow2_zero _⟩,
    fun b y => ⟨⟨y, fun _ => y⟩, reverseBitsLimited_zero _ b⟩⟩
  case log2 =>
    have h := (one_le_toNat_iff a).mp ha
    exact (toNat_log2Pow2 p a h).trans_le (highestSetBit_le a h)
  case limited =>
    have h := (one_le_toNat_iff a).mp ha
    show (reverseBitsLimited p a b).toNat < _ ∧ _ ∧ (reverseBitsLimited p a b).toNat ≤ _ ∧
      (reverseBitsLimited p a b).getLsbD 63 = false
    have range := toNat_reverseBitsLimited_lt p a b h
    have largest : 2 ^ highestSetBit a ≤ 2 ^ 63 := Nat.pow_le_pow_right Nat.two_pos (highestSetBit_le a h)
    rw [← highestSetBit_eq_log a h]
    refine ⟨range, (highestSetBit_bounds a h).1, Nat.le_sub_one_of_lt (range.trans_le largest), ?_⟩
    rw [← BitVec.testBit_toNat]
    exact Nat.testBit_lt_two_pow (range.trans_le largest)

theorem isPowerOfTwo_iff_eq_one_shiftLeft_log2 (p : Config.Params) (n : Word) (h : n ≠ 0#64) :
    isPowerOfTwo n = true ↔ n = 1#64 <<< (log2Pow2 p n).toNat := by
  rw [isPowerOfTwo_iff, or_iff_right h, toNat_log2Pow2 p n h]
  constructor
  · rintro ⟨k, hk, rfl⟩
    rw [highestSetBit_one_shiftLeft k hk]
  · intro hn
    exact ⟨highestSetBit n, highestSetBit_le n h, hn⟩

theorem isPowerOfTwo_reverseBits (n : Word) : isPowerOfTwo (reverseBits n) = isPowerOfTwo n := by
  rw [Bool.eq_iff_iff, isPowerOfTwo_iff_popcount, isPowerOfTwo_iff_popcount, popcount_reverseBits]

/-- The upper half of the words below `2^w` is those with bit `w - 1` set. -/
theorem two_pow_le_iff_getLsbD (v : Word) (k : Nat) (hv : v.toNat < 2 ^ (k + 1)) :
    2 ^ k ≤ v.toNat ↔ v.getLsbD k = true := by
  rw [← BitVec.testBit_toNat]
  exact ⟨fun upper => Nat.testBit_of_two_pow_le_and_two_pow_add_one_gt upper hv, Nat.ge_two_pow_of_testBit⟩

theorem odd_iff_getLsbD_zero (x : Word) : x.toNat % 2 = 1 ↔ x.getLsbD 0 = true := by
  rw [← BitVec.testBit_toNat, Nat.testBit_zero, decide_eq_true_iff]

/-- Settles O40: (a) by value, (b) by the number of set bits, (c) to (e) by the shift and the window of `n`, (f) by the bit
that the limited reversal puts at 0. -/
theorem lawsConnectingTheOperations : Obligations.LawsConnectingTheOperations := by
  intro p
  refine ⟨fun n hn => isPowerOfTwo_iff_eq_one_shiftLeft_log2 p n ((one_le_toNat_iff n).mp hn),
    isPowerOfTwo_reverseBits, fun k hk => ?c, fun n value hn => ?d, fun n value hn => ?e, fun w v hw1 hw hv => ?f⟩
  case c => rw [reverseBits_one_shiftLeft k hk, log2Pow2_one_shiftLeft p _ (Nat.sub_le 63 k)]
  case d =>
    have h := (one_le_toNat_iff n).mp hn
    rw [toNat_log2Pow2 p n h, reverseBits_shl, reverseBitsLimited_of_ne_zero p n value h]
  case e =>
    have h := (one_le_toNat_iff n).mp hn
    rw [toNat_log2Pow2 p n h]
    exact reverseBitsLimited_eq_one_shiftLeft_mod p n value h
  case f =>
    have lowest : (reverseBitsLimited p (1#64 <<< w) v).getLsbD 0 = v.getLsbD (w - 1) := by
      rw [getLsbD_reverseBitsLimited_one_shiftLeft p w hw, decide_eq_true (Nat.lt_of_succ_le hw1), Bool.true_and,
        Nat.sub_zero]
    refine ⟨lowest, ?_⟩
    rw [odd_iff_getLsbD_zero, lowest]
    exact two_pow_le_iff_getLsbD v (w - 1) (by rwa [Nat.sub_add_cancel hw1])

end Sys2Proof.Machine
end

section
/-! PROOFS. Where two units differ, and a step with nothing left to issue (spec/60_exceptions.md R146, R150). -/

namespace Sys2Proof.Machine

theorem domainClass_eq_outsideOpen_iff (c : Command) :
    domainClass c = .outsideOpen ↔ inDomain c = false ∧ c.a = 0#64 := by
  cases inside : inDomain c <;> simp [domainClass, inside]

/-- At `a = 0` the precondition of `op` 2 and that of `op` 3 fail (R60). -/
theorem inDomain_eq_false_of_a_eq_zero (op : OpSelect) (b : Word) (hop : op = 2#2 ∨ op = 3#2) :
    inDomain { op := op, a := 0#64, b := b } = false := by
  obtain ⟨-, -, log2, limited, -⟩ := inDomainIsThePreconditions 0#64 b
  rw [Bool.eq_false_iff]
  intro h
  obtain rfl | rfl := hop
  · exact absurd (log2.mp h) (by decide)
  · exact absurd (limited.mp h).2 (Nat.not_lt_zero _)

/-- The commands whose result is open (R11): a one-operand command of `op` 0 or 1 is in domain whatever `a` is. -/
theorem domainClass_eq_outsideOpen_iff_op_and_a (c : Command) :
    domainClass c = .outsideOpen ↔ (c.op = 2#2 ∨ c.op = 3#2) ∧ c.a = 0#64 := by
  rw [domainClass_eq_outsideOpen_iff]
  refine and_congr_left fun ha => ?_
  obtain ⟨op, a, b⟩ := c
  obtain rfl : a = 0#64 := ha
  refine ⟨fun outside => ?_, inDomain_eq_false_of_a_eq_zero op b⟩
  obtain rfl | rfl | rfl | rfl := opSelect_cases op
  · cases outside
  · cases outside
  · exact Or.inl rfl
  · exact Or.inr rfl

/-- From `a = 1` on, in domain or not, no operation reads an open parameter; for `op` 3 this rests on the spec's decision
D6. -/
theorem unitFunction_congr_params_of_a_ne_zero (p q : Config.Params) (c : Command) (ha : c.a ≠ 0#64) :
    unitFunction p c = unitFunction q c := by
  obtain ⟨op, a, b⟩ := c
  obtain rfl | rfl | rfl | rfl := opSelect_cases op
  · rfl
  · rfl
  · exact (log2Pow2_of_ne_zero p a ha).trans (log2Pow2_of_ne_zero q a ha).symm
  · exact (reverseBitsLimited_of_ne_zero p a b ha).trans (reverseBitsLimited_of_ne_zero q a b ha).symm

theorem unitFunction_congr_params_of_not_outsideOpen (p q : Config.Params) (c : Command)
    (h : domainClass c ≠ .outsideOpen) : unitFunction p c = unitFunction q c := by
  by_cases ha : c.a = 0#64
  · have inside : inDomain c = true := by
      by_contra outside
      exact h ((domainClass_eq_outsideOpen_iff c).mpr ⟨Bool.eq_false_of_not_eq_true outside, ha⟩)
    exact unitFunction_congr_params p q c inside
  · exact unitFunction_congr_params_of_a_ne_zero p q c ha

/-- The unit both of whose open parameters are `y`. -/
def openParams (y : Word) : Config.Params := { log2OfZero := y, rblOfNzero := fun _ => y }

/-- Any word is the result of an open command, in the unit that has it for its parameters (R94, R106). -/
theorem unitFunction_openParams (y : Word) (c : Command) (h : domainClass c = .outsideOpen) :
    unitFunction (openParams y) c = y := by
  obtain ⟨op, a, b⟩ := c
  obtain ⟨hop, ha⟩ := (domainClass_eq_outsideOpen_iff_op_and_a _).mp h
  obtain rfl : a = 0#64 := ha
  obtain rfl | rfl : op = 2#2 ∨ op = 3#2 := hop
  · exact log2Pow2_zero _
  · exact reverseBitsLimited_zero _ b

/-- Settles O24: only at `a = 0` can `F` read a parameter, and there `op` 0 and 1 are in domain; on an open command the
units whose parameters are 0 and 1 answer 0 and 1. -/
theorem parametersMatterOnlyWhereOpen : Obligations.ParametersMatterOnlyWhereOpen := by
  refine ⟨domainClass_eq_outsideOpen_iff_op_and_a, unitFunction_congr_params_of_not_outsideOpen,
    fun c h => ⟨openParams 0#64, openParams 1#64, ?_⟩⟩
  rw [unitFunction_openParams 0#64 c h, unitFunction_openParams 1#64 c h]
  decide

/-- Settles O9: with nothing pending the step drives `F` of the command held on the inputs, as `exec` of its decoding
does. -/
theorem stepWithNothingPendingHoldsTheInputs : Obligations.StepWithNothingPendingHoldsTheInputs := by
  intro s t hpending hexec
  rw [step_of_nil s hpending, ← exec_decode, hexec]

end Sys2Proof.Machine
end

section
/-! PROOFS. Power-up, and that a run over the host's list ends (spec/70_reset_and_hazards.md R155, R156, R162). -/

namespace Sys2Proof.Machine

theorem canStep (s : State) : s.CanStep := ⟨_, step_eq s⟩

/-- Settles O11: `step_eq` answers from every state, and the run over the list samples one result a command. -/
theorem everyCommandListRunsToItsEnd : Obligations.EveryCommandListRunsToItsEnd := by
  refine ⟨canStep, fun s => ?_⟩
  obtain ⟨t, hrun, hpending, hresults⟩ := core_run_pending s.pending s rfl
  exact ⟨t, hrun, hpending, by rw [hresults, List.length_append, List.length_map]⟩

/-- Settles O20: `y` is `F` of the zeros on the inputs by definition, and `is_power_of_two(0)` is true (R71). -/
theorem resetIsSettledAndEmpty : Obligations.ResetIsSettledAndEmpty := by
  have settled : State.reset.Settled := rfl
  have y_eq_one : State.reset.y = 1#64 := congrArg wordOfBool isPowerOfTwo_zero
  exact ⟨settled, y_eq_one, rfl, rfl, rfl, rfl, rfl⟩

end Sys2Proof.Machine
end

section
/-! PROOFS. Command words written out as numbers (spec/95_test_vectors.md sections 1.1 and 2.3). -/

namespace Sys2Proof

/-- A number that is the encoding of an instruction decodes to it: the encoder says what a written-out word is. -/
theorem decodeTableWord_eq_some_of_toNat_encode {w : Nat} {i : Instr} (h : (encode i).toNat = w) :
    decodeTableWord 136 w = some i := by
  rw [← h, decodeTableWord_toNat, decodeWord_encode]

/-- Settles O6: each of the four numbers is the encoding of its instruction, and decoding inverts encoding. -/
theorem writtenOutWordsDecode : Obligations.WrittenOutWordsDecode := by
  refine ⟨?_, ?_, ?_, ?_⟩
  all_goals exact decodeTableWord_eq_some_of_toNat_encode (by decide)

end Sys2Proof
end
